-- ==== Sys2Proof/Word.lean ====
section
/-! DEFINITION. The word of the block (00_scope R5: `W` is fixed at 32; R6, R7). -/

namespace Sys2Proof

/-- A word: 32 bits, bit 0 the least significant (00_scope R7, 20_memory R23).
`u(v)` of the spec is `v.toNat` and `s(v)` is `v.toInt`. -/
abbrev Word := BitVec 32

/-- A control byte (30_encoding R33). -/
abbrev Byte := BitVec 8

end Sys2Proof
end

