-- ==== Sys2Proof/Syntax.lean ====
section
/-! DEFINITION. Commands as the host issues them, and instructions as the opcode table lists them
(30_encoding R32 to R35). -/

namespace Sys2Proof

/-- A command: a control byte and two operand words (30_encoding R32). -/
structure Command where
  ctl : Byte
  a : Word
  b : Word
  deriving DecidableEq, Repr

/-- The twelve commands of the opcode map (30_encoding R34), each with the operands it uses (R35), in the
order in which the assembler writes them (R40). A port the command ignores is no operand. -/
inductive Instr where
  /-- POPCNT: count the set bits of `x` (40_popcount R44). -/
  | popcnt (x : Word)
  /-- LZC: index of the highest set bit of `x` (41_lzc R52). -/
  | lzc (x : Word)
  /-- FBSET: compose a float pattern into `FB.word` (42_float_composer R61). -/
  | fbset (sign : Bool) (bpo m : Word)
  /-- FBGET: read `FB.word` (42_float_composer R62). -/
  | fbget
  /-- FXLD: load `FX.word` from the real value whose single-precision pattern is `v` (43_fixed_point R68). -/
  | fxld (v : Word)
  /-- FXGET: read `FX.word` (43_fixed_point R69). -/
  | fxget
  /-- FXADDI: add the integer `k` (43_fixed_point R70). -/
  | fxaddi (k : Word)
  /-- FXSUBI: subtract the integer `k` (43_fixed_point R71). -/
  | fxsubi (k : Word)
  /-- FXADD: add the fixed-point word `w` of the same `SHIFT` (43_fixed_point R72, R78). -/
  | fxadd (w : Word)
  /-- FXSUB: subtract the fixed-point word `w` of the same `SHIFT` (43_fixed_point R73, R78). -/
  | fxsub (w : Word)
  /-- FXMULI: multiply by the integer `k` (43_fixed_point R74). -/
  | fxmuli (k : Word)
  /-- FXMUL: multiply by the fixed-point word `w` of the same `SHIFT` (43_fixed_point R75, R78). -/
  | fxmul (w : Word)
  deriving DecidableEq, Repr

end Sys2Proof
end

