-- ==== Sys2Proof/WellFormed.lean ====
section
/-! DEFINITION. The three checks of a control byte (30_encoding R37). A command that passes them is well
formed; one that fails any of them is reserved. A value of `Instr` needs no check of its own: its operands
are a sign bit and whole words, and the encoding admits each of them at every value (R35, R36). -/

namespace Sys2Proof

/-- R37 (a) fails: `ctl[7:5]` is 0b000. -/
def Command.zeroFieldOk (c : Command) : Bool :=
  c.ctl.extractLsb' 5 3 == 0#3

/-- R37 (b) fails: `ctl[3:0]` is none of 0xC to 0xF. -/
def Command.opOk (c : Command) : Bool :=
  (c.ctl.extractLsb' 0 4).toNat < 12

/-- R37 (c) fails: `ctl[4]` is 0, or the command is FBSET, whose `op` is 0x2. -/
def Command.signOk (c : Command) : Bool :=
  !c.ctl.getLsbD 4 || c.ctl.extractLsb' 0 4 == 0x2#4

/-- The control byte is one of the defined ones (30_encoding R37). -/
def Command.wellFormed (c : Command) : Bool :=
  c.zeroFieldOk && c.opOk && c.signOk

end Sys2Proof
end

