-- ==== Sys2Proof/Decode.lean ====
section
/-! DEFINITION. Format C (30_encoding R33): the fields of a control byte, the decoder and the encoder. -/

namespace Sys2Proof

/-- `ctl[7:5]`, the field `zero` (30_encoding R33). -/
def Command.zeroField (c : Command) : BitVec 3 := c.ctl.extractLsb' 5 3

/-- `ctl[4]`, the field `s` (30_encoding R33, R36). -/
def Command.sField (c : Command) : Bool := c.ctl.getLsbD 4

/-- `ctl[3:0]`, the field `op` (30_encoding R33). -/
def Command.opField (c : Command) : BitVec 4 := c.ctl.extractLsb' 0 4

/-- Why a control byte is reserved: the three cases of 30_encoding R37. A step turns each of them into
`Refusal.reservedEncoding`. -/
inductive Reserved where
  /-- R37 (a): `ctl[7:5]` is not 0b000. -/
  | zeroField
  /-- R37 (b): `ctl[3:0]` is one of 0xC to 0xF. -/
  | opcode
  /-- R37 (c): `ctl[4] = 1` on a command that is not FBSET. -/
  | signOutsideFbset
  deriving DecidableEq, Repr

/-- The command `i` of a code other than FBSET's: it must be issued with `s = 0` (30_encoding R33, R37). -/
def unsignedForm (s : Bool) (i : Instr) : Except Reserved Instr :=
  match s with
  | false => .ok i
  | true => .error .signOutsideFbset

/-- The opcode map (30_encoding R34) applied to the fields `s` and `op` and the operand ports (R35). -/
def decodeOp (s : Bool) (op : BitVec 4) (a b : Word) : Except Reserved Instr :=
  match op.toNat with
  | 0x0 => unsignedForm s (.popcnt a)
  | 0x1 => unsignedForm s (.lzc a)
  | 0x2 => .ok (.fbset s b a)
  | 0x3 => unsignedForm s .fbget
  | 0x4 => unsignedForm s (.fxld a)
  | 0x5 => unsignedForm s .fxget
  | 0x6 => unsignedForm s (.fxaddi a)
  | 0x7 => unsignedForm s (.fxsubi a)
  | 0x8 => unsignedForm s (.fxadd a)
  | 0x9 => unsignedForm s (.fxsub a)
  | 0xA => unsignedForm s (.fxmuli a)
  | 0xB => unsignedForm s (.fxmul a)
  | _ => .error .opcode

/-- Decoding, total on every command: its instruction, or the case of R37 that makes it reserved. -/
def decode (c : Command) : Except Reserved Instr :=
  if c.zeroField = 0#3 then decodeOp c.sField c.opField c.a c.b else .error .zeroField

/-- The control byte of an instruction (30_encoding R34: "Full control bytes"). -/
def Instr.ctl : Instr → Byte
  | .popcnt _ => 0x00#8
  | .lzc _ => 0x01#8
  | .fbset false _ _ => 0x02#8
  | .fbset true _ _ => 0x12#8
  | .fbget => 0x03#8
  | .fxld _ => 0x04#8
  | .fxget => 0x05#8
  | .fxaddi _ => 0x06#8
  | .fxsubi _ => 0x07#8
  | .fxadd _ => 0x08#8
  | .fxsub _ => 0x09#8
  | .fxmuli _ => 0x0A#8
  | .fxmul _ => 0x0B#8

/-- The operand port `a` (30_encoding R35); a port the command ignores is driven with 0 (R40; log 14). -/
def Instr.portA : Instr → Word
  | .popcnt x => x
  | .lzc x => x
  | .fbset _ _ m => m
  | .fbget => 0#32
  | .fxld v => v
  | .fxget => 0#32
  | .fxaddi k => k
  | .fxsubi k => k
  | .fxadd w => w
  | .fxsub w => w
  | .fxmuli k => k
  | .fxmul w => w

/-- The operand port `b` (30_encoding R35): only FBSET uses it, for the binary point offset. -/
def Instr.portB : Instr → Word
  | .fbset _ bpo _ => bpo
  | .popcnt _ | .lzc _ | .fbget | .fxld _ | .fxget | .fxaddi _ | .fxsubi _ | .fxadd _ | .fxsub _
  | .fxmuli _ | .fxmul _ => 0#32

/-- The command that stands for an instruction (30_encoding R33 to R35, R40). -/
def encode (i : Instr) : Command := ⟨i.ctl, i.portA, i.portB⟩

/-- The flat 72-bit form `{ctl, a, b}` of a command (30_encoding R33). -/
def Command.toFlat (c : Command) : BitVec 72 := c.ctl ++ c.a ++ c.b

/-- The command whose flat form is `f`: `ctl` in bits 71:64, `a` in 63:32, `b` in 31:0 (30_encoding R33). -/
def Command.ofFlat (f : BitVec 72) : Command :=
  ⟨f.extractLsb' 64 8, f.extractLsb' 32 32, f.extractLsb' 0 32⟩

/-- The command that the opcode table's bits `w` stand for (log 9). The table numbers a row's bits in two
ways: `match` and `mask` on the control byte alone (8 bits; the operand words are then 0), and `match_flat`
and `mask_flat` on the flat form (more than 8 bits). -/
def commandOfTableWord (nbits w : Nat) : Command :=
  if nbits ≤ 8 then ⟨BitVec.ofNat 8 w, 0#32, 0#32⟩ else Command.ofFlat (BitVec.ofNat 72 w)

/-- The instruction the decoder reads from the opcode table's bits `w`. -/
def decodeTableWord (nbits w : Nat) : Option Instr :=
  match decode (commandOfTableWord nbits w) with
  | .ok i => some i
  | .error _ => none

end Sys2Proof
end

