-- ==== Sys2Proof/Config.lean ====
section
/-! DEFINITION. What an instance of the block fixes when it is built (00_scope R5), and the free values the
spec leaves open. A free value is an opaque constant: no proof can learn what it is. -/

namespace Sys2Proof

/-- Which bit `leading_zero_counter` reports (41_lzc R48, R50; 90_conflicts C1). -/
inductive LzcVariant where
  /-- The index of the highest set bit: the spec's normative reading. -/
  | msb
  /-- The index of the lowest set bit: the alternative reading (R50, R65). -/
  | lsb
  deriving DecidableEq, Repr, Inhabited

/-- What LZC answers on input 0 (41_lzc R51; 92_eei_decisions D7). -/
inductive LzcZero where
  /-- Any value, drawn afresh each time: the spec's rule. -/
  | any
  /-- `LZC_ZERO = 32`, the value of the literal datapath: the spec's optional configuration, an assumption
  wherever it is used (log 8). -/
  | datapath
  deriving DecidableEq, Repr, Inhabited

/-- How FXLD rounds a value half way between two integers (43_fixed_point R67; D16). -/
inductive TieRule where
  /-- Away from zero. -/
  | away
  /-- To the even one. -/
  | even
  /-- To the greater one. -/
  | up
  deriving DecidableEq, Repr, Inhabited

/-- The width of the product inside FXMUL (43_fixed_point R75, R80; D13). -/
inductive MulIntermediate where
  /-- Cut to 32 bits before the shift: the spec's configuration. -/
  | w32
  /-- The exact product, shifted and then cut: the alternative of R80. -/
  | w64
  deriving DecidableEq, Repr, Inhabited

/-- The constants of one instance (00_scope R5). They are no registers: no command reads them out and none
writes them, and reset does not touch them (10_state R16, 70_reset_and_hazards R93). -/
structure Config where
  /-- `SHIFT`, the binary-point position, 0 to 31 (D14). -/
  shift : Fin 32
  /-- `LZC_VARIANT`. -/
  lzcVariant : LzcVariant
  /-- `LZC_ZERO`. -/
  lzcZero : LzcZero
  /-- `TIE_RULE`. -/
  tieRule : TieRule
  /-- `MUL_INTERMEDIATE`. -/
  mulIntermediate : MulIntermediate
  deriving DecidableEq, Repr

/-- `ANY32` (00_scope R7, 60_exceptions R88): the word given by the `n`-th draw, of which nothing may be
assumed. DESIGN CHOICE, log 6. Safe: no value of it can be proved. -/
opaque Config.freeWord : Nat → Word

/-- What `FB.word` holds after the `n`-th step that REFUSE(fx_unwritten) leaves without a defined state: "After a
`REFUSE` the state is not defined" (60_exceptions R88), so nothing may be assumed of it. DESIGN CHOICE, log 21. Safe:
no value of it can be proved. -/
opaque Config.undefinedFb : Nat → Word

/-- What `FX.word` holds after the `n`-th step that REFUSE(fx_unwritten) leaves without a defined state (60_exceptions
R88). DESIGN CHOICE, log 21. Safe: no value of it can be proved. -/
opaque Config.undefinedFx : Nat → Word

/-- Whether `FX.word` counts as written after the `n`-th step that REFUSE(fx_unwritten) leaves without a defined state
(60_exceptions R88). DESIGN CHOICE, log 21. Safe: no value of it can be proved. -/
opaque Config.undefinedMark : Nat → Bool

/-- What the port `r` shows after the `n`-th step that REFUSE(fx_unwritten) leaves without a defined state
(60_exceptions R88). DESIGN CHOICE, log 21. Safe: no value of it can be proved. -/
opaque Config.undefinedResult : Nat → Word

/-- The `SHIFT` of the block that `State.reset` describes: OPEN in 0 to 31 (00_scope R5). DESIGN CHOICE,
log 4. Safe: a claim proved of it holds for every value. -/
opaque Config.shiftOfBlock : Fin 32

/-- The `TIE_RULE` of the block that `State.reset` describes: OPEN (00_scope R5). DESIGN CHOICE, log 4. Safe:
a claim proved of it holds for every value. -/
opaque Config.tieRuleOfBlock : TieRule

/-- The spec's normative configuration (00_scope R5): `LZC_VARIANT = MSB`, `LZC_ZERO` any value,
`MUL_INTERMEDIATE = W32`, with the two OPEN parameters left open. UNVERIFIED, log 5: the spec was not checked
against the block's source code. -/
def Config.block : Config where
  shift := Config.shiftOfBlock
  lzcVariant := .msb
  lzcZero := .any
  tieRule := Config.tieRuleOfBlock
  mulIntermediate := .w32

end Sys2Proof
end

