-- ==== Sys2Proof/Machine/Operands.lean ====
section
/-! DEFINITION. The operand forms of the commands (30_encoding R35, R36, R39) and the shifts of 00_scope R7.
An operand is a whole word taken as it stands; the form says how it is read. -/

namespace Sys2Proof.Machine

/-- `wrap32(z)`: the word `v` with `u(v) = z mod 2^32` (00_scope R7). -/
abbrev wrap32 (z : Int) : Word := BitVec.ofInt 32 z

/-- An operand read as two's complement, `s(v)`: FBSET's offset, the integers `k`, the fixed-point
words (30_encoding R35). The unsigned reading `u(v)` is `v.toNat`. -/
def asSigned (v : Word) : Int := v.toInt

/-- `zext_32` of a small result (30_encoding R39). -/
def zext32 (n : Nat) : Word := BitVec.ofNat 32 n

/-- `x << n` for `n` from 0 to 31 (00_scope R7). -/
def shiftLeft (x : BitVec 32) (n : Nat) : Word := x <<< n

/-- `x >>u n`, the logical right shift, for `n` from 0 to 31 (00_scope R7). -/
def shiftRightLogical (x : BitVec 32) (n : Nat) : Word := x >>> n

/-- `x >>s n`, the arithmetic right shift, for `n` from 0 to 31 (00_scope R7). -/
def shiftRightArith (x : BitVec 32) (n : Nat) : Word := x.sshiftRight n

end Sys2Proof.Machine
end

