-- ==== Sys2Proof/Machine/State.lean ====
section
/-! DEFINITION. One instance of the block as plain data (10_state R10 to R21), and the state after reset. -/

namespace Sys2Proof.Machine

/-- What the host asks of an instance. It asks one thing at a time (20_memory R28). -/
inductive Request where
  /-- Issue a command (30_encoding R32). -/
  | command (c : Command)
  /-- Reset the instance; it falls between two commands, never inside one (70_reset_and_hazards R93). -/
  | reset
  deriving DecidableEq, Repr

/-- The hardware faults of a step. There are none: "The complete list of exception causes is the empty list"
(60_exceptions R83), and no command waits or traps. So nothing raises a fault, which is exact (log 15). -/
inductive Fault where
  deriving DecidableEq, Repr

/-- Why the model gives a step no meaning (60_exceptions R88). -/
inductive Refusal where
  /-- Raised by an arm of `exec` that has no meaning yet. Safe: the run stops. -/
  | notModelled (mnemonic : String)
  /-- `REFUSE(reserved_encoding)`: raised by `step` on a reserved control byte (30_encoding R37). Safe: the
  run stops where the hardware would do something the spec does not say. The refusals of a run are kept
  (60_exceptions R88): `earlier` is `State.fxRefusals`, 0 if this one is the first (log 21). -/
  | reservedEncoding (earlier : Nat)
  deriving DecidableEq, Repr

/-- One instance of the block with its command stream.

`fb`, `fx` and `fxWritten` are the spec's state (10_state R10, R20). `cfg` holds the constants of the
instance (00_scope R5, 10_state R21), which no step changes. `fxRefusals`, `result`, `pending` and `draws` are the
model's own: the record of each REFUSE(fx_unwritten), the port `r`, the host, and the free values (log 1, 3, 6, 21). -/
structure State where
  /-- The constants of the instance (log 4). -/
  cfg : Config
  /-- `FB.word`, the one word of the float composer (10_state R11). -/
  fb : Word
  /-- `FX.word`, the one word of the fixed-point units (10_state R12). -/
  fx : Word
  /-- Whether `FX.word` has been written since reset (10_state R20). -/
  fxWritten : Bool
  /-- How many commands of this run have read `FX.word` unwritten: the outcome `REFUSE(fx_unwritten)`, which the spec
  keeps for the rest of the run (60_exceptions R88), and how many steps were taken since. While it is 0 the run is
  without such a refusal (log 21). -/
  fxRefusals : Nat
  /-- The port `r`: the result of the last command, none before the first (30_encoding R39,
  70_reset_and_hazards R93). -/
  result : Option Word
  /-- The requests the host has still to make, next one first (20_memory R28). -/
  pending : List Request
  /-- How many free values have been drawn. -/
  draws : Nat
  deriving DecidableEq, Repr

/-- An instance right after reset (70_reset_and_hazards R93): `FB.word` is 0x00000000 (10_state R19), `FX.word`
is unwritten and its bits are a free value (10_state R20; DESIGN CHOICE, log 7), and the port `r` has no value
until the first command. -/
def State.resetWith (cfg : Config) (pending : List Request) (draws : Nat) : State where
  cfg := cfg
  fb := 0x00000000#32
  fx := Config.freeWord draws
  fxWritten := false
  fxRefusals := 0
  result := none
  pending := pending
  draws := draws + 1

/-- The block after reset, in the spec's normative configuration, with no request made yet. -/
def State.reset : State := State.resetWith Config.block [] 0

end Sys2Proof.Machine
end

