-- ==== Sys2Proof/Machine/Ops.lean ====
section
/-! DEFINITION. The named operations on an instance: its port, its two registers, its free values, reset and
the host's stream. There is no memory to read or write (20_memory R22) and no exception to take or return from
(60_exceptions R83, R87), so no operation for either stands here. -/

namespace Sys2Proof.Machine

/-- `r <- w`: the result of the command (00_scope R7, 30_encoding R39). -/
def State.answer (s : State) (w : Word) : State := { s with result := some w }

/-- `FB.word <- w`, all 32 bits (10_state R11). -/
def State.writeFb (s : State) (w : Word) : State := { s with fb := w }

/-- `FX.word <- w`, all 32 bits; the register then counts as written (10_state R12, R20). -/
def State.writeFx (s : State) (w : Word) : State := { s with fx := w, fxWritten := true }

/-- The word a computation gives in state `s`: its value, or the next free value where the spec says `ANY32`
(00_scope R7), which is `none` here. -/
def State.settle (s : State) (v : Option Word) : Word :=
  match v with
  | some w => w
  | none => Config.freeWord s.draws

/-- The state once the word of `State.settle` is drawn: an `ANY32` uses up one free value. -/
def State.spend (s : State) (v : Option Word) : State :=
  match v with
  | some _ => s
  | none => { s with draws := s.draws + 1 }

/-- `REFUSE(fx_unwritten)` (10_state R20, 60_exceptions R88). It is no event of the hardware, where every command
completes and returns a result (60_exceptions R83), so it is a next state here: one that is not defined, with a free
value in each register, in the mark of `FX.word` and on the port. The refusal is counted, and `State.keepRefusal`
keeps it for the rest of the run. DESIGN CHOICE, log 21; safe. -/
def State.refuseFx (s : State) : State :=
  { s with
    fb := Config.undefinedFb s.fxRefusals
    fx := Config.undefinedFx s.fxRefusals
    fxWritten := Config.undefinedMark s.fxRefusals
    result := some (Config.undefinedResult s.fxRefusals)
    fxRefusals := s.fxRefusals + 1 }

/-- "The refusal is kept for the rest of the run" (60_exceptions R88): the outcome `o` of a step from `s`, unless a
`REFUSE(fx_unwritten)` has been counted already. Then the step, whatever it was asked for, answers a state that is not
defined again, so that nothing can be proved of a refused run (95_test_vectors, P6). DESIGN CHOICE, log 21; safe. -/
def State.keepRefusal (s : State) (o : Host.Outcome State Fault Refusal) : Host.Outcome State Fault Refusal :=
  if s.fxRefusals = 0 then o else .next s.refuseFx

/-- A command that reads `FX.word`: `REFUSE(fx_unwritten)` if nothing has written it since reset, whatever the
operand (10_state R20, 43_fixed_point R69 to R75, 60_exceptions R86), else `k` of its value. -/
def State.withFx (s : State) (k : Word → State) : Host.Outcome State Fault Refusal :=
  .next (if s.fxWritten then k s.fx else s.refuseFx)

/-- An arithmetic command on `FX.word` (43_fixed_point R70 to R75): read it, write `f` of it, answer the word
written (R77). -/
def State.updateFx (s : State) (f : Word → Word) : Host.Outcome State Fault Refusal :=
  s.withFx fun x => (s.writeFx (f x)).answer (f x)

/-- The reset action (70_reset_and_hazards R93). The constants of the instance, the host's stream and the record
`fxRefusals` of the run stay. -/
def State.applyReset (s : State) : State :=
  { State.resetWith s.cfg s.pending s.draws with fxRefusals := s.fxRefusals }

/-- The state once the request at the head of the stream has been taken from it. -/
def State.consume (s : State) : State := { s with pending := s.pending.tail }

/-- The host makes one more request, after those it has made already (20_memory R28). -/
def State.issue (s : State) (q : Request) : State := { s with pending := s.pending ++ [q] }

end Sys2Proof.Machine
end

