-- ==== Sys2Proof/Machine/FixedAdder.lean ====
section
/-! DEFINITION. The unit `fixed_point_adder`: FXADDI, FXSUBI, FXADD and FXSUB (43_fixed_point section 4). Every
sum, difference and shift is taken modulo 2^32 (R76). -/

namespace Sys2Proof.Machine

/-- `ks <- a << SHIFT`: the integer `k` in the scale of the instance (43_fixed_point R70, R71). -/
def scaleInt (cfg : Config) (k : Word) : Word := shiftLeft k cfg.shift.val

/-- FXADDI (43_fixed_point R70). -/
def execFxaddi (k : Word) (s : State) : Host.Outcome State Fault Refusal :=
  s.updateFx fun x => x + scaleInt s.cfg k

/-- FXSUBI (43_fixed_point R71). -/
def execFxsubi (k : Word) (s : State) : Host.Outcome State Fault Refusal :=
  s.updateFx fun x => x - scaleInt s.cfg k

/-- FXADD (43_fixed_point R72). No scale is checked (R78). -/
def execFxadd (w : Word) (s : State) : Host.Outcome State Fault Refusal :=
  s.updateFx fun x => x + w

/-- FXSUB (43_fixed_point R73). No scale is checked (R78). -/
def execFxsub (w : Word) (s : State) : Host.Outcome State Fault Refusal :=
  s.updateFx fun x => x - w

end Sys2Proof.Machine
end

