-- ==== Sys2Proof/Machine/Popcount.lean ====
section
/-! DEFINITION. The unit `popcount_32` and the command POPCNT (40_popcount). -/

namespace Sys2Proof.Machine

/-- One pass of the parallel bit summation: add the two interleaved halves selected by `mask` (40_popcount R42;
PRESUMED, log 19: the spec takes the expression of a pass from general knowledge, its G1). -/
def swarPass (mask : Word) (sh : Nat) (t : Word) : Word :=
  (t &&& mask) + (shiftRightLogical t sh &&& mask)

/-- `t5` of 40_popcount R42: the word after the five passes. -/
def swarSum (x : Word) : Word :=
  let t1 := swarPass 0x55555555#32 1 x
  let t2 := swarPass 0x33333333#32 2 t1
  let t3 := swarPass 0x0F0F0F0F#32 4 t2
  let t4 := swarPass 0x00FF00FF#32 8 t3
  swarPass 0x0000FFFF#32 16 t4

/-- `popcount32(x)`: the low eight bits of `t5`, an integer 0 to 32 (40_popcount R42). -/
def popcount32 (x : Word) : Nat := ((swarSum x).extractLsb' 0 8).toNat

/-- POPCNT (40_popcount R44): answers the count of `x` and changes no register. -/
def execPopcnt (x : Word) (s : State) : Host.Outcome State Fault Refusal :=
  .next (s.answer (zext32 (popcount32 x)))

end Sys2Proof.Machine
end

