-- ==== Sys2Proof/Machine/LeadingZero.lean ====
section
/-! DEFINITION. The unit `leading_zero_counter` and the command LZC (41_lzc). -/

namespace Sys2Proof.Machine

/-- One test of the binary search: keep the bits under `mask` if there are any, else the word unchanged
(41_lzc R46). -/
def keepIfAny (mask w : Word) : Word := if w &&& mask ≠ 0#32 then w &&& mask else w

/-- `reduce_msb(x)`: the five mask tests, in the order of 41_lzc R46. -/
def reduceMsb (x : Word) : Word :=
  let w1 := keepIfAny 0xFFFF0000#32 x
  let w2 := keepIfAny 0xFF00FF00#32 w1
  let w3 := keepIfAny 0xF0F0F0F0#32 w2
  let w4 := keepIfAny 0xCCCCCCCC#32 w3
  keepIfAny 0xAAAAAAAA#32 w4

/-- `low_index(y)`: isolate the lowest set bit, subtract 1, count the ones (41_lzc R47). -/
def lowIndex (y : Word) : Nat :=
  let neg := 0#32 - y
  let iso := y &&& neg
  let mask := iso - 1#32
  popcount32 mask

/-- `lzc_index(x)`, the unit's output, for `x` not 0 (41_lzc R48, R50). -/
def lzcIndex (variant : LzcVariant) (x : Word) : Nat :=
  match variant with
  | .msb => lowIndex (reduceMsb x)
  | .lsb => lowIndex x

/-- The result of LZC; `none` is `ANY32` (41_lzc R51, R52). Under the optional `LZC_ZERO = 32` input 0 gives
32, the value of the literal datapath (R51; log 8). -/
def lzcResult (cfg : Config) (x : Word) : Option Word :=
  if x = 0#32 then
    match cfg.lzcZero with
    | .any => none
    | .datapath => some 0x00000020#32
  else some (zext32 (lzcIndex cfg.lzcVariant x))

/-- LZC (41_lzc R52): answers the index and changes no register; input 0 answers a free value. -/
def execLzc (x : Word) (s : State) : Host.Outcome State Fault Refusal :=
  let v := lzcResult s.cfg x
  .next ((s.spend v).answer (s.settle v))

end Sys2Proof.Machine
end

