-- ==== Sys2Proof/Machine/FloatComposer.lean ====
section
/-! DEFINITION. The unit `float_composer`, the float view of a word, and the commands FBSET and FBGET
(42_float_composer). -/

namespace Sys2Proof.Machine

/-- Bit 31 of the composed word (42_float_composer R55 step 1). -/
def signBits (sign : Bool) : Word := if sign then 0x80000000#32 else 0x00000000#32

/-- The mantissa field for the shift amount `n` (42_float_composer R55 step 3). -/
def mantissaBits (m : Word) (n : Nat) : Word := shiftLeft m n &&& 0x007FFFFF#32

/-- The exponent field for the exponent `e`, which wraps modulo 256 (42_float_composer R55 step 5, R59). -/
def exponentBits (e : Int) : Word := wrap32 ((e + 127) * 2 ^ 23) &&& 0x7F800000#32

/-- `compose(sign, bpo, m)` (42_float_composer R55); `none` is `ANY32` (R58). -/
def compose (variant : LzcVariant) (sign : Bool) (bpo m : Word) : Option Word :=
  if m = 0#32 then some 0x00000000#32
  else
    let n : Int := 23 - lzcIndex variant m
    if n < 0 then none
    else
      let e : Int := 23 - n - asSigned bpo
      some (signBits sign ||| mantissaBits m n.toNat ||| exponentBits e)

/-- A word read as a single-precision number (42_float_composer R60). `finite m e` is the real `m * 2^e`,
exactly (log 12). -/
inductive FloatValue where
  | zero (negative : Bool)
  | finite (m e : Int)
  | infinity (negative : Bool)
  | nan
  deriving DecidableEq, Repr

/-- `float_value(w)` (42_float_composer R60). The lines for exponent field 0 with a fraction and for exponent
field 255 are the spec's from general knowledge, its G2 (PRESUMED, log 12). -/
def floatValue (w : Word) : FloatValue :=
  let negative := w.getLsbD 31
  let e := (w.extractLsb' 23 8).toNat
  let f := (w.extractLsb' 0 23).toNat
  let signed (n : Nat) : Int := if negative then -(n : Int) else n
  if e = 255 then (if f = 0 then .infinity negative else .nan)
  else if e = 0 then (if f = 0 then .zero negative else .finite (signed f) (-149))
  else .finite (signed (2 ^ 23 + f)) (e - 150)

/-- The real number a float value stands for; none for an infinity or a NaN (42_float_composer R60). -/
def FloatValue.toRat? : FloatValue → Option ℚ
  | .zero _ => some 0
  | .finite m e => some (m * 2 ^ e)
  | .infinity _ => none
  | .nan => none

/-- FBSET (42_float_composer R61): composes a pattern, stores it in `FB.word` and answers it; where the result
is `ANY32` one free value is drawn, stored and answered. The old `FB.word` is not read. -/
def execFbset (sign : Bool) (bpo m : Word) (s : State) : Host.Outcome State Fault Refusal :=
  let v := compose s.cfg.lzcVariant sign bpo m
  .next (((s.spend v).writeFb (s.settle v)).answer (s.settle v))

/-- FBGET (42_float_composer R62): answers `FB.word`. -/
def execFbget (s : State) : Host.Outcome State Fault Refusal :=
  .next (s.answer s.fb)

end Sys2Proof.Machine
end

