-- ==== Sys2Proof/Machine/FixedLoad.lean ====
section
/-! DEFINITION. The load and read paths of the fixed-point units: FXLD and FXGET (43_fixed_point sections 2
and 3). -/

namespace Sys2Proof.Machine

/-- The integer that `tie` selects for the value half way between `f` and `f + 1` (43_fixed_point R67). -/
def tieChoice (tie : TieRule) (f : Int) : Int :=
  match tie with
  | .away => if 0 ≤ f then f + 1 else f
  | .even => if f % 2 = 0 then f else f + 1
  | .up => f + 1

/-- The integer nearest to `m / d`, for `d` not 0, ties by `tie` (43_fixed_point R67). -/
def roundQuotient (tie : TieRule) (m : Int) (d : Nat) : Int :=
  let f := m / (d : Int)
  let rest := m % (d : Int)
  if 2 * rest < d then f
  else if 2 * rest > d then f + 1
  else tieChoice tie f

/-- The integer nearest to `m * 2^k`, ties by `tie` (43_fixed_point R67). -/
def roundScaled (tie : TieRule) (m k : Int) : Int :=
  if 0 ≤ k then m * 2 ^ k.toNat else roundQuotient tie m (2 ^ (-k).toNat)

/-- `fx_from_real(v)` for `v = m * 2^e`: scale exactly by `2^SHIFT`, round, and keep the integer if it fits a
two's complement word; `none` is `ANY32` (43_fixed_point R67). -/
def fxFromReal (cfg : Config) (m e : Int) : Option Word :=
  let z := roundScaled cfg.tieRule m (e + cfg.shift.val)
  if -2 ^ 31 ≤ z ∧ z ≤ 2 ^ 31 - 1 then some (wrap32 z) else none

/-- The word FXLD loads for the pattern `v`; `none` is `ANY32` (43_fixed_point R68). A zero of either sign is
the real 0. -/
def fxFromPattern (cfg : Config) (v : Word) : Option Word :=
  match floatValue v with
  | .zero _ => fxFromReal cfg 0 0
  | .finite m e => fxFromReal cfg m e
  | .infinity _ => none
  | .nan => none

/-- FXLD (43_fixed_point R68): loads `FX.word` and answers the word; where the result is `ANY32` one free value
is drawn, stored and answered. The old `FX.word` is not read. -/
def execFxld (v : Word) (s : State) : Host.Outcome State Fault Refusal :=
  let w := fxFromPattern s.cfg v
  .next (((s.spend w).writeFx (s.settle w)).answer (s.settle w))

/-- FXGET (43_fixed_point R69): answers `FX.word`. -/
def execFxget (s : State) : Host.Outcome State Fault Refusal :=
  s.withFx fun x => s.answer x

end Sys2Proof.Machine
end

