-- ==== Sys2Proof/Machine/FixedMultiplier.lean ====
section
/-! DEFINITION. The unit `fixed_point_multiplier`: FXMULI and FXMUL (43_fixed_point section 5). -/

namespace Sys2Proof.Machine

/-- The product of two two's complement words, kept to 32 bits (43_fixed_point R74, R76). -/
def product32 (x y : Word) : Word := wrap32 (asSigned x * asSigned y)

/-- The word FXMUL writes (43_fixed_point R75, R80): the product cut to 32 bits and shifted arithmetically, or
the exact product shifted with floor and then cut. -/
def fxProduct (cfg : Config) (x y : Word) : Word :=
  match cfg.mulIntermediate with
  | .w32 => shiftRightArith (product32 x y) cfg.shift.val
  | .w64 => wrap32 (asSigned x * asSigned y / 2 ^ cfg.shift.val)

/-- FXMULI (43_fixed_point R74): no shift is applied. -/
def execFxmuli (k : Word) (s : State) : Host.Outcome State Fault Refusal :=
  s.updateFx fun x => product32 x k

/-- FXMUL (43_fixed_point R75). No scale is checked (R78). -/
def execFxmul (w : Word) (s : State) : Host.Outcome State Fault Refusal :=
  s.updateFx fun x => fxProduct s.cfg x w

end Sys2Proof.Machine
end

