-- ==== Sys2Proof/Machine/Dispatch.lean ====
section
/-! DEFINITION. One arm per instruction of the opcode table, each a direct call of its meaning. -/

namespace Sys2Proof.Machine

/-- The effect of an instruction on an instance. -/
def exec (i : Instr) (s : State) : Host.Outcome State Fault Refusal :=
  match i with
  | .popcnt x => Sys2Proof.Machine.execPopcnt x s
  | .lzc x => Sys2Proof.Machine.execLzc x s
  | .fbset sign bpo m => Sys2Proof.Machine.execFbset sign bpo m s
  | .fbget => Sys2Proof.Machine.execFbget s
  | .fxld v => Sys2Proof.Machine.execFxld v s
  | .fxget => Sys2Proof.Machine.execFxget s
  | .fxaddi k => Sys2Proof.Machine.execFxaddi k s
  | .fxsubi k => Sys2Proof.Machine.execFxsubi k s
  | .fxadd w => Sys2Proof.Machine.execFxadd w s
  | .fxsub w => Sys2Proof.Machine.execFxsub w s
  | .fxmuli k => Sys2Proof.Machine.execFxmuli k s
  | .fxmul w => Sys2Proof.Machine.execFxmul w s

end Sys2Proof.Machine
end

