-- ==== Sys2Proof/Machine/Issue.lean ====
section
/-! DEFINITION. How an instance carries out one request of the host (92_eei_decisions D1, D19, D24). -/

namespace Sys2Proof.Machine

/-- A command issued to the instance: decoded first, and refused if its control byte is reserved, whatever the
operands and the state are (30_encoding R37, 60_exceptions R86); else run, unless the run is refused already (R88). -/
def runCommand (c : Command) (s : State) : Host.Outcome State Fault Refusal :=
  match decode c with
  | .ok i => s.keepRefusal (exec i s)
  | .error _ => .refused (.reservedEncoding s.fxRefusals)

/-- A request carried out: a command (20_memory R25) or a reset (70_reset_and_hazards R93). A reset does not end a
refused run: the next run starts from `State.reset` (60_exceptions R88). -/
def carryOut (q : Request) (s : State) : Host.Outcome State Fault Refusal :=
  match q with
  | .command c => runCommand c s
  | .reset => s.keepRefusal (.next s.applyReset)

/-- No request is pending: the block waits for the host (70_reset_and_hazards R94) and changes nothing (DESIGN
CHOICE, log 2; safe), unless the run is refused already (60_exceptions R88). -/
def idle (s : State) : Host.Outcome State Fault Refusal := s.keepRefusal (.next s)

end Sys2Proof.Machine
end

