-- ==== Sys2Proof/Machine/Step.lean ====
section
/-! DEFINITION. One step of an instance: it takes the next request of the host (92_eei_decisions D1, D24). -/

namespace Sys2Proof.Machine

/-- One step: the next request of the host, carried out completely (20_memory R25, R28), or the wait for one
(70_reset_and_hazards R94). -/
def step (s : State) : Host.Outcome State Fault Refusal :=
  match s.pending with
  | [] => idle s
  | q :: _ => carryOut q s.consume

/-- `s` with the instruction of the opcode table's bits `w` as the host's next request, before those already
pending (log 9). -/
def State.withFetchWord (s : State) (nbits w : Nat) : State :=
  { s with pending := .command (commandOfTableWord nbits w) :: s.pending }

end Sys2Proof.Machine
end

