-- ==== Sys2Proof/Machine/Assembler.lean ====
section
/-! DEFINITION. The assembler lines of 30_encoding R40: a mnemonic and its operands in the document's order. The
text of a line (decimal and hexadecimal spelling, comments) is not modelled: the block never sees it (log 20). -/

namespace Sys2Proof.Machine

/-- The instruction of an assembler line. A number stands for the word it is congruent to, so that a negative
decimal stands for its two's complement word (30_encoding R40). FXLD's number is the pattern of its operand.
No other line exists: there are no pseudo-instructions (R41). -/
def assemble (mnemonic : String) (operands : List Int) : Option Instr :=
  match mnemonic, operands with
  | "POPCNT", [x] => some (.popcnt (wrap32 x))
  | "LZC", [x] => some (.lzc (wrap32 x))
  | "FBSET", [0, bpo, m] => some (.fbset false (wrap32 bpo) (wrap32 m))
  | "FBSET", [1, bpo, m] => some (.fbset true (wrap32 bpo) (wrap32 m))
  | "FBGET", [] => some .fbget
  | "FXLD", [v] => some (.fxld (wrap32 v))
  | "FXGET", [] => some .fxget
  | "FXADDI", [k] => some (.fxaddi (wrap32 k))
  | "FXSUBI", [k] => some (.fxsubi (wrap32 k))
  | "FXADD", [w] => some (.fxadd (wrap32 w))
  | "FXSUB", [w] => some (.fxsub (wrap32 w))
  | "FXMULI", [k] => some (.fxmuli (wrap32 k))
  | "FXMUL", [w] => some (.fxmul (wrap32 w))
  | _, _ => none

end Sys2Proof.Machine
end

