-- ==== Sys2Proof/Machine/System.lean ====
section
/-! DEFINITION. Several instances side by side (10_state R21, 60_exceptions R92): independent copies that share
nothing, each with its own registers, constants and command stream (log 17). -/

namespace Sys2Proof.Machine

/-- The instances of a system (00_scope R5: their number is OPEN). -/
abbrev System := List State

/-- One step of instance `i`. The others are neither read nor written (10_state R21).

60_exceptions R88 keeps a refusal for the rest of the run of one block, and the spec does not say what becomes of the
other instances of a system. The model settles it for each of the two refusals (DESIGN CHOICE, log 17).
`REFUSE(reserved_encoding)` of instance `i` is a refused step of the system, and the run of the whole system ends.
`REFUSE(fx_unwritten)` of instance `i` is recorded in that instance alone (`State.fxRefusals`, log 21), and every
instance runs on. -/
def System.stepAt (sys : System) (i : Fin sys.length) : Host.Outcome System Fault Refusal :=
  match step (sys.get i) with
  | .next t => .next (sys.set i t)
  | .fault r => .fault r
  | .refused r => .refused r

end Sys2Proof.Machine
end

