-- ==== Sys2Proof/Safety.lean ====
section
/-! DEFINITION. What a safe run is, and the words the claims are stated in. -/

namespace Sys2Proof

/-- The spec's normative configuration (00_scope R5), whatever its OPEN parameters are. -/
def Config.Normative (cfg : Config) : Prop :=
  cfg.lzcVariant = .msb ∧ cfg.lzcZero = .any ∧ cfg.mulIntermediate = .w32

end Sys2Proof

namespace Sys2Proof.Machine

/-- The commands that read `FX.word`: FXGET, and every command that writes it except FXLD (10_state R10). -/
def readsFx : Instr → Bool
  | .fxget | .fxaddi _ | .fxsubi _ | .fxadd _ | .fxsub _ | .fxmuli _ | .fxmul _ => true
  | .popcnt _ | .lzc _ | .fbset _ _ _ | .fbget | .fxld _ => false

/-- The commands that write `FX.word`: FXLD and the six arithmetic commands (10_state R12). -/
def writesFx : Instr → Bool
  | .fxld _ | .fxaddi _ | .fxsubi _ | .fxadd _ | .fxsub _ | .fxmuli _ | .fxmul _ => true
  | .popcnt _ | .lzc _ | .fbset _ _ _ | .fbget | .fxget => false

/-- The only command that writes `FB.word` (10_state R11). -/
def writesFb : Instr → Bool
  | .fbset _ _ _ => true
  | .popcnt _ | .lzc _ | .fbget | .fxld _ | .fxget | .fxaddi _ | .fxsubi _ | .fxadd _ | .fxsub _
  | .fxmuli _ | .fxmul _ => false

/-- The only command that reads `FB.word` (10_state R11). -/
def readsFb : Instr → Bool
  | .fbget => true
  | .popcnt _ | .lzc _ | .fbset _ _ _ | .fxld _ | .fxget | .fxaddi _ | .fxsubi _ | .fxadd _ | .fxsub _
  | .fxmuli _ | .fxmul _ => false

/-- The commands that use operand port `a` (30_encoding R35). -/
def usesA : Instr → Bool
  | .fbget | .fxget => false
  | .popcnt _ | .lzc _ | .fbset _ _ _ | .fxld _ | .fxaddi _ | .fxsubi _ | .fxadd _ | .fxsub _
  | .fxmuli _ | .fxmul _ => true

/-- The command that uses operand port `b` (30_encoding R35). -/
def usesB : Instr → Bool
  | .fbset _ _ _ => true
  | .popcnt _ | .lzc _ | .fbget | .fxld _ | .fxget | .fxaddi _ | .fxsubi _ | .fxadd _ | .fxsub _
  | .fxmuli _ | .fxmul _ => false

/-- A stream the host may issue to an instance whose `FX.word` is written or not, as `written` says: every
control byte is defined (30_encoding R37) and no command reads `FX.word` before an FXLD since the last reset
(70_reset_and_hazards R95). -/
def streamSafe (written : Bool) : List Request → Bool
  | [] => true
  | .reset :: qs => streamSafe false qs
  | .command c :: qs =>
    match decode c with
    | .error _ => false
    | .ok i => (written || !readsFx i) && streamSafe (written || writesFx i) qs

/-- A safe instance: no refusal has been counted (60_exceptions R88), and what the host has still to ask of it is a
stream it may issue. -/
def State.Safe (s : State) : Prop := s.fxRefusals = 0 ∧ streamSafe s.fxWritten s.pending = true

/-- The number of bit positions 0 to 31 that are set in `x` (40_popcount R43). -/
def setBitCount (x : Word) : Nat := ((List.range 32).filter fun i => x.getLsbD i).length

/-- `h` is the msb index of `x`: the largest `i` with `x[i] = 1` (00_scope R9). -/
def IsMsbIndex (x : Word) (h : Nat) : Prop := x.getLsbD h = true ∧ ∀ i, h < i → x.getLsbD i = false

/-- `t` is the lsb index of `x`: the smallest `i` with `x[i] = 1` (00_scope R9). -/
def IsLsbIndex (x : Word) (t : Nat) : Prop := x.getLsbD t = true ∧ ∀ i, i < t → x.getLsbD i = false

/-- The single-precision layout (10_state R11): `{sign, exponent, mantissa}`. -/
def floatWord (sign : Bool) (exponent : BitVec 8) (mantissa : BitVec 23) : Word :=
  BitVec.ofBool sign ++ exponent ++ mantissa

/-- The integer fits a two's complement word (43_fixed_point R66, R67). -/
def FitsWord (z : Int) : Prop := -2 ^ 31 ≤ z ∧ z ≤ 2 ^ 31 - 1

/-- The real number that `FX.word = w` represents: `s(w) / 2^SHIFT` (43_fixed_point R66). -/
def fxValue (cfg : Config) (w : Word) : ℚ := (w.toInt : ℚ) / 2 ^ cfg.shift.val

/-- `z` is the integer nearest to `q`, and where `q` is half way between two integers the one `tie` selects
(43_fixed_point R67). -/
def IsRounding (tie : TieRule) (q : ℚ) (z : Int) : Prop :=
  |(z : ℚ) - q| ≤ 1 / 2 ∧
    (|(z : ℚ) - q| = 1 / 2 →
      match tie with
      | .away => |q| < |(z : ℚ)|
      | .even => z % 2 = 0
      | .up => q < z)

/-- The operands on which a command's result is left open (60_exceptions R88): the three `ANY32` cases. -/
def resultOpen (cfg : Config) : Instr → Bool
  | .lzc x => (lzcResult cfg x).isNone
  | .fbset sign bpo m => (compose cfg.lzcVariant sign bpo m).isNone
  | .fxld v => (fxFromPattern cfg v).isNone
  | .popcnt _ | .fbget | .fxget | .fxaddi _ | .fxsubi _ | .fxadd _ | .fxsub _ | .fxmuli _ | .fxmul _ => false

end Sys2Proof.Machine
end

