-- ==== Sys2Proof/Certificates/Slice0/Obligations.lean ====
section
/-! DEFINITION. The statements about the model that the spec's rules ask for. Each docstring names the rule a
statement formalises. Free values (`Config.freeWord`) stand in them uninterpreted. -/

open Sys2Proof Sys2Proof.Machine

/-! ### Encoding -/

/-- 30_encoding R34: the opcode map. Every defined control byte, with any operand words, is the command the map
gives it, its operands taken from the ports of R35; codes 0xC to 0xF are reserved. -/
def Obligations.ControlBytesOfTheOpcodeMap : Prop :=
  ∀ a b : Word,
    decode ⟨0x00#8, a, b⟩ = .ok (.popcnt a) ∧
    decode ⟨0x01#8, a, b⟩ = .ok (.lzc a) ∧
    decode ⟨0x02#8, a, b⟩ = .ok (.fbset false b a) ∧
    decode ⟨0x12#8, a, b⟩ = .ok (.fbset true b a) ∧
    decode ⟨0x03#8, a, b⟩ = .ok .fbget ∧
    decode ⟨0x04#8, a, b⟩ = .ok (.fxld a) ∧
    decode ⟨0x05#8, a, b⟩ = .ok .fxget ∧
    decode ⟨0x06#8, a, b⟩ = .ok (.fxaddi a) ∧
    decode ⟨0x07#8, a, b⟩ = .ok (.fxsubi a) ∧
    decode ⟨0x08#8, a, b⟩ = .ok (.fxadd a) ∧
    decode ⟨0x09#8, a, b⟩ = .ok (.fxsub a) ∧
    decode ⟨0x0A#8, a, b⟩ = .ok (.fxmuli a) ∧
    decode ⟨0x0B#8, a, b⟩ = .ok (.fxmul a) ∧
    decode ⟨0x0C#8, a, b⟩ = .error .opcode ∧
    decode ⟨0x0D#8, a, b⟩ = .error .opcode ∧
    decode ⟨0x0E#8, a, b⟩ = .error .opcode ∧
    decode ⟨0x0F#8, a, b⟩ = .error .opcode

/-- 30_encoding R37: a control byte is reserved exactly in the three cases (a), (b), (c); of the 256 control
bytes 13 are defined and 243 reserved, whatever the operands; the step of a reserved command is
REFUSE(reserved_encoding), whatever the state (with the model's own count `n` of earlier refusals). -/
def Obligations.ReservedControlBytesAreRefused : Prop :=
  (∀ c : Command, (decode c).isOk = false ↔
    c.ctl.extractLsb' 5 3 ≠ 0b000#3 ∨
    c.ctl.extractLsb' 0 4 ∈ [0xC#4, 0xD#4, 0xE#4, 0xF#4] ∨
    (c.ctl.getLsbD 4 = true ∧ c.ctl.extractLsb' 0 4 ≠ 0x2#4)) ∧
  (∀ a b : Word,
    ((List.range 256).filter fun n => (decode ⟨BitVec.ofNat 8 n, a, b⟩).isOk).length = 13 ∧
    ((List.range 256).filter fun n => !(decode ⟨BitVec.ofNat 8 n, a, b⟩).isOk).length = 243) ∧
  (∀ (s : State) (c : Command) (rest : List Request), s.pending = .command c :: rest →
    (decode c).isOk = false → ∃ n, step s = .refused (.reservedEncoding n))

/-- 30_encoding R33, R36: the flat 72-bit form of every instruction's command, taken apart again and decoded, is
that instruction, with every operand at every value. -/
def Obligations.FlatFormRoundTrip : Prop :=
  ∀ i : Instr, decode (Command.ofFlat (encode i).toFlat) = .ok i

/-- 30_encoding R33, R35: encoding what a command decodes to gives its control byte back, and the operand words
of the ports it uses. -/
def Obligations.DecodedCommandsEncodeBack : Prop :=
  ∀ (c : Command) (i : Instr), decode c = .ok i →
    (encode i).ctl = c.ctl ∧ (usesA i = true → (encode i).a = c.a) ∧ (usesB i = true → (encode i).b = c.b)

/-- 30_encoding R35: a port marked ignored does not affect the command: with another word on it the same
instruction is decoded, so the same step is taken. -/
def Obligations.IgnoredPortsDoNotMatter : Prop :=
  ∀ (c d : Command) (i : Instr), decode c = .ok i → d.ctl = c.ctl →
    (usesA i = true → d.a = c.a) → (usesB i = true → d.b = c.b) → decode d = .ok i

/-- 30_encoding R40: the table of assembler lines and the commands they stand for. -/
def Obligations.AssemblerLinesStandForTheirCommands : Prop :=
  ∀ x y : Int,
    (assemble "POPCNT" [x]).map encode = some ⟨0x00#8, BitVec.ofInt 32 x, 0#32⟩ ∧
    (assemble "LZC" [x]).map encode = some ⟨0x01#8, BitVec.ofInt 32 x, 0#32⟩ ∧
    (assemble "FBSET" [0, y, x]).map encode = some ⟨0x02#8, BitVec.ofInt 32 x, BitVec.ofInt 32 y⟩ ∧
    (assemble "FBSET" [1, y, x]).map encode = some ⟨0x12#8, BitVec.ofInt 32 x, BitVec.ofInt 32 y⟩ ∧
    (assemble "FBGET" []).map encode = some ⟨0x03#8, 0#32, 0#32⟩ ∧
    (assemble "FXLD" [x]).map encode = some ⟨0x04#8, BitVec.ofInt 32 x, 0#32⟩ ∧
    (assemble "FXGET" []).map encode = some ⟨0x05#8, 0#32, 0#32⟩ ∧
    (assemble "FXADDI" [x]).map encode = some ⟨0x06#8, BitVec.ofInt 32 x, 0#32⟩ ∧
    (assemble "FXSUBI" [x]).map encode = some ⟨0x07#8, BitVec.ofInt 32 x, 0#32⟩ ∧
    (assemble "FXADD" [x]).map encode = some ⟨0x08#8, BitVec.ofInt 32 x, 0#32⟩ ∧
    (assemble "FXSUB" [x]).map encode = some ⟨0x09#8, BitVec.ofInt 32 x, 0#32⟩ ∧
    (assemble "FXMULI" [x]).map encode = some ⟨0x0A#8, BitVec.ofInt 32 x, 0#32⟩ ∧
    (assemble "FXMUL" [x]).map encode = some ⟨0x0B#8, BitVec.ofInt 32 x, 0#32⟩

/-! ### The step -/

/-- 20_memory R25, R28, 92 D1: a step whose next request is a command that decodes to `i` is `exec i`, on the state
with that one request taken from the host's stream (the stream is the model's choice, log 1), unless the run is refused
already: then it answers the not defined state of `State.refuseFx` (the model's choice, log 21). -/
def Obligations.StepRunsTheDecodedCommand : Prop :=
  ∀ (s : State) (c : Command) (rest : List Request) (i : Instr),
    s.pending = .command c :: rest → decode c = .ok i →
    (s.fxRefusals = 0 → step s = exec i { s with pending := rest }) ∧
    (s.fxRefusals ≠ 0 → step s = .next { s with pending := rest }.refuseFx)

/-- 30_encoding section 2, with the numbering of table words that the model chooses (log 9): a table word placed as
the next request is the instruction the next step runs, and nothing else changes, unless the run is refused already (the
model's choice, log 21). -/
def Obligations.PlacedTableWordRunsNext : Prop :=
  ∀ (s : State) (nbits w : Nat) (i : Instr), decodeTableWord nbits w = some i →
    (s.fxRefusals = 0 → step (s.withFetchWord nbits w) = exec i s) ∧
    (s.fxRefusals ≠ 0 → step (s.withFetchWord nbits w) = .next s.refuseFx)

/-- 70_reset_and_hazards R94 (the block waits for the host; that a step then changes nothing is the model's
choice, log 2): with nothing pending a step changes nothing, and the next request is the one the host makes. In a run
that is refused already each of these steps answers the not defined state of `State.refuseFx` (the model's choice,
log 21). -/
def Obligations.TheBlockWaitsForTheHost : Prop :=
  ∀ s : State, s.pending = [] →
    (s.fxRefusals = 0 → step s = .next s ∧
      (∀ (c : Command) (i : Instr), decode c = .ok i → step (s.issue (.command c)) = exec i s)) ∧
    (s.fxRefusals ≠ 0 → step s = .next s.refuseFx ∧
      (∀ (c : Command) (i : Instr), decode c = .ok i → step (s.issue (.command c)) = .next s.refuseFx))

/-- 60_exceptions section 5, with four points that are the model's: the complete list of outcomes of a step. Nothing
pending (the model's choice, log 2) or a reset request (DEDUCED, log 10): a next state. A reserved command:
REFUSE(reserved_encoding). A command that reads an unwritten `FX.word`: REFUSE(fx_unwritten), after which the state is
not defined; the model makes it a next state with a free value in each register, in the mark and on the port, and
counts it (the model's choice, log 21). Any other command: a next state and a result; on the operands the spec leaves
open the result is one free value (the model's form of `ANY32`, log 6), and that value is what the command stores if
it stores a word. A refusal is kept for the rest of the run: a refused step is the run's outcome, and from a counted
one on every step but a reserved command answers a state that is not defined again, a reset included, with a count
that only grows. -/
def Obligations.OutcomesOfAStep : Prop :=
  ∀ s : State,
    (match s.pending with
    | .command c :: rest =>
      match decode c with
      | .error _ => step s = .refused (.reservedEncoding s.fxRefusals)
      | .ok i =>
        if s.fxRefusals ≠ 0 ∨ (readsFx i = true ∧ s.fxWritten = false) then
          step s = .next
            { s with fb := Config.undefinedFb s.fxRefusals, fx := Config.undefinedFx s.fxRefusals,
                     fxWritten := Config.undefinedMark s.fxRefusals,
                     result := some (Config.undefinedResult s.fxRefusals), fxRefusals := s.fxRefusals + 1,
                     pending := rest }
        else ∃ (t : State) (w : Word), step s = .next t ∧ t.result = some w ∧ t.pending = rest ∧
          t.fxRefusals = 0 ∧
          (if resultOpen s.cfg i = true then
            w = Config.freeWord s.draws ∧ t.draws = s.draws + 1 ∧
            t.fb = (if writesFb i = true then w else s.fb) ∧ t.fx = (if writesFx i = true then w else s.fx)
          else t.draws = s.draws)
    | rest =>
      if s.fxRefusals ≠ 0 then
        step s = .next
          { s with fb := Config.undefinedFb s.fxRefusals, fx := Config.undefinedFx s.fxRefusals,
                   fxWritten := Config.undefinedMark s.fxRefusals,
                   result := some (Config.undefinedResult s.fxRefusals), fxRefusals := s.fxRefusals + 1,
                   pending := rest.tail }
      else ∃ t, step s = .next t ∧ t.fxRefusals = 0 ∧ t.pending = rest.tail) ∧
    (∀ (r : Refusal) (k : Nat), step s = .refused r → core.run (k + 1) s = .refused r) ∧
    (∀ (k : Nat) (t : State), core.run k s = .next t → s.fxRefusals ≤ t.fxRefusals) ∧
    (∀ (k : Nat) (r : Refusal), core.run k s = .refused r → ∃ n, r = .reservedEncoding n ∧ s.fxRefusals ≤ n) ∧
    (∀ (k : Nat) (t : State), s.fxRefusals ≠ 0 → core.run (k + 1) s = .next t → ∃ n, s.fxRefusals ≤ n ∧
      t.fb = Config.undefinedFb n ∧ t.fx = Config.undefinedFx n ∧ t.fxWritten = Config.undefinedMark n ∧
      t.result = some (Config.undefinedResult n))

/-- 60_exceptions section 3, with REFUSE(fx_unwritten) as the counted next state that the model makes of it (log 21):
the order of checks. A reserved control byte is refused as such whatever the operands and the state; then a command
that reads an unwritten `FX.word` is counted as refused whatever its operand, and draws no `ANY32`; only then the open
cases, which draw one and count no refusal. In a run that is refused already no step draws an `ANY32`. -/
def Obligations.OrderOfChecks : Prop :=
  ∀ (s : State) (c : Command) (rest : List Request), s.pending = .command c :: rest →
    ((decode c).isOk = false → ∃ n, step s = .refused (.reservedEncoding n)) ∧
    (∀ i, decode c = .ok i → readsFx i = true → s.fxWritten = false →
      ∃ t, step s = .next t ∧ t.fxRefusals = s.fxRefusals + 1 ∧ t.draws = s.draws) ∧
    (∀ i, decode c = .ok i → resultOpen s.cfg i = true → s.fxRefusals = 0 →
      ∃ t, step s = .next t ∧ t.draws = s.draws + 1 ∧ t.fxRefusals = 0) ∧
    (∀ i, decode c = .ok i → s.fxRefusals ≠ 0 → ∃ t, step s = .next t ∧ t.draws = s.draws)

/-! ### Reset -/

/-- 10_state section 5: after reset `FB.word` is 0x00000000, there is no written mark for it, and FBGET returns
0x00000000. A reset request (DEDUCED, log 10) does the same, in a run that is not refused already (log 21). -/
def Obligations.FbWordAfterReset : Prop :=
  State.reset.fb = 0x00000000#32 ∧
  exec .fbget State.reset = .next { State.reset with result := some 0x00000000#32 } ∧
  (∀ (s : State) (rest : List Request), s.pending = .reset :: rest → s.fxRefusals = 0 →
    ∃ t, step s = .next t ∧ t.fb = 0x00000000#32 ∧
      exec .fbget t = .next { t with result := some 0x00000000#32 })

/-- 10_state section 5, 60_exceptions section 5: after reset `FX.word` is unwritten and no refusal is counted; FXLD is
always allowed, makes it written and counts none. Every command that reads it unwritten is REFUSE(fx_unwritten), after
which the state is not defined: the model answers a next state with a free value in each register, in the mark of
`FX.word` and on the port, and counts the refusal (the model's choices, log 7 and 21). -/
def Obligations.ReadsOfUnwrittenFxWordAreRecorded : Prop :=
  (State.reset.fxWritten = false ∧ State.reset.fxRefusals = 0 ∧ State.reset.fx = Config.freeWord 0) ∧
  (∀ (s : State) (k : Word), s.fxWritten = false →
    ∀ i ∈ [Instr.fxget, .fxaddi k, .fxsubi k, .fxadd k, .fxsub k, .fxmuli k, .fxmul k],
      exec i s = .next
        { s with fb := Config.undefinedFb s.fxRefusals, fx := Config.undefinedFx s.fxRefusals,
                 fxWritten := Config.undefinedMark s.fxRefusals,
                 result := some (Config.undefinedResult s.fxRefusals), fxRefusals := s.fxRefusals + 1 }) ∧
  (∀ (s : State) (v : Word), ∃ t, exec (.fxld v) s = .next t ∧ t.fxWritten = true ∧ t.fxRefusals = s.fxRefusals)

/-- 70_reset_and_hazards section 1, with three points that are the model's: a reset request (DEDUCED, log 10) makes
`FB.word` 0x00000000 and `FX.word` unwritten, leaves the constants of the instance (`SHIFT` among them) and the rest of
the host's stream (the model's choice, log 1 and 10), and leaves no result until the next command. State.reset is such
a state. In a run that is refused already a reset request answers the not defined state of `State.refuseFx` (the model's
choice, log 21), and leaves the constants all the same. -/
def Obligations.EffectOfReset : Prop :=
  (∀ (s : State) (rest : List Request), s.pending = .reset :: rest → s.fxRefusals = 0 →
    ∃ t, step s = .next t ∧ t.fb = 0x00000000#32 ∧ t.fxWritten = false ∧ t.cfg = s.cfg ∧ t.result = none ∧
      t.pending = rest) ∧
  (∀ (s : State) (rest : List Request), s.pending = .reset :: rest → s.fxRefusals ≠ 0 →
    step s = .next { s with pending := rest }.refuseFx) ∧
  (State.reset.fb = 0x00000000#32 ∧ State.reset.fxWritten = false ∧ State.reset.result = none)

/-! ### POPCNT -/

/-- 40_popcount R42, R43: the word after the five passes is the number of set bits, at most 32, and so is
`popcount32`. -/
def Obligations.FivePassesCountTheSetBits : Prop :=
  ∀ x : Word,
    popcount32 x = setBitCount x ∧ (swarSum x).toNat = setBitCount x ∧ (swarSum x).toNat ≤ 32

/-- 40_popcount R44: POPCNT answers the count and changes nothing else; it is total; only 0 gives 0 and only
0xFFFFFFFF gives 32, one set bit gives 1, and the complement gives 32 less the count. -/
def Obligations.PopcntAnswersTheCount : Prop :=
  (∀ a b : Word, decode ⟨0x00#8, a, b⟩ = .ok (.popcnt a)) ∧
  (∀ (s : State) (a : Word),
    exec (.popcnt a) s = .next { s with result := some (BitVec.ofNat 32 (setBitCount a)) }) ∧
  (∀ a : Word, (BitVec.ofNat 32 (setBitCount a)).extractLsb' 6 26 = 0#26 ∧
    (setBitCount a = 0 ↔ a = 0#32) ∧ (setBitCount a = 32 ↔ a = 0xFFFFFFFF#32) ∧
    setBitCount (~~~a) = 32 - setBitCount a) ∧
  (∀ i : Nat, i < 32 → setBitCount (1#32 <<< i) = 1)

/-! ### LZC -/

/-- 41_lzc R46: the five mask tests isolate the highest set bit, and leave 0 as it is. -/
def Obligations.MaskTestsIsolateTheHighestBit : Prop :=
  (∀ x : Word, x ≠ 0#32 → ∃ h, IsMsbIndex x h ∧ reduceMsb x = 1#32 <<< h) ∧ reduceMsb 0#32 = 0#32

/-- 41_lzc R47: `low_index` isolates the lowest set bit and gives its index, 0 to 31; of 0 it gives 32. -/
def Obligations.LowIndexIsTheLowestSetBit : Prop :=
  (∀ y : Word, y ≠ 0#32 → ∃ t, IsLsbIndex y t ∧ t ≤ 31 ∧
    y &&& BitVec.ofInt 32 (-(y.toNat : Int)) = 1#32 <<< t ∧ lowIndex y = t) ∧
  lowIndex 0#32 = 32

/-- 41_lzc R49: under `LZC_VARIANT = MSB` the index of a word that is not 0 is the floor of its base-2 logarithm,
31 less its leading zeros. -/
def Obligations.MsbIndexIsTheLogarithm : Prop :=
  ∀ x : Word, x ≠ 0#32 →
    2 ^ lzcIndex .msb x ≤ x.toNat ∧ x.toNat < 2 ^ (lzcIndex .msb x + 1) ∧
    lzcIndex .msb x = Nat.log 2 x.toNat ∧
    x.clz.toNat = 31 - lzcIndex .msb x ∧
    lzcIndex .msb x ≤ 31 ∧
    (lzcIndex .msb x = 31 ↔ x.getLsbD 31 = true) ∧
    (lzcIndex .msb x = 0 ↔ x = 1#32)

/-- 41_lzc R50: under `LZC_VARIANT = LSB` the index is that of the lowest set bit; the two readings agree on a word
that is not 0 exactly when it has one set bit; 0x00000003 and 0x12345678 separate them. -/
def Obligations.LsbVariantIsTheLowestSetBit : Prop :=
  (∀ x : Word, x ≠ 0#32 →
    lzcIndex .lsb x = lowIndex x ∧ IsLsbIndex x (lzcIndex .lsb x) ∧
    (lzcIndex .lsb x = lzcIndex .msb x ↔ setBitCount x = 1)) ∧
  lzcIndex .msb 0x00000003#32 = 1 ∧ lzcIndex .lsb 0x00000003#32 = 0 ∧
  lzcIndex .msb 0x12345678#32 = 28 ∧ lzcIndex .lsb 0x12345678#32 = 3

/-- 41_lzc section 4: LZC of a word that is not 0 answers its index, 0 to 31, and changes nothing else; LZC 0 answers
`ANY32`, as the next free value of a counter (the model's choice, log 6), and changes no register. Under MSB the bits
below the highest set bit never matter. -/
def Obligations.LzcAnswersTheIndex : Prop :=
  (∀ a b : Word, decode ⟨0x01#8, a, b⟩ = .ok (.lzc a)) ∧
  (∀ (s : State) (a : Word), a ≠ 0#32 →
    exec (.lzc a) s = .next { s with result := some (BitVec.ofNat 32 (lzcIndex s.cfg.lzcVariant a)) } ∧
    lzcIndex s.cfg.lzcVariant a ≤ 31) ∧
  (∀ a : Word, a ≠ 0#32 → IsMsbIndex a (lzcIndex .msb a) ∧ IsLsbIndex a (lzcIndex .lsb a)) ∧
  (∀ s : State, s.cfg.lzcZero = .any →
    exec (.lzc 0#32) s =
      .next { s with result := some (Config.freeWord s.draws), draws := s.draws + 1 }) ∧
  (∀ a v : Word, a ≠ 0#32 → v.toNat < 2 ^ lzcIndex .msb a → lzcIndex .msb (a ||| v) = lzcIndex .msb a)

/-- 41_lzc section 3: the literal datapath gives 32 on input 0 under both variants, and under the optional
configuration `LZC_ZERO = 32`, an assumption wherever it is used (log 8), LZC 0 answers that value. -/
def Obligations.LiteralDatapathOnZero : Prop :=
  lzcIndex .msb 0#32 = 32 ∧ lzcIndex .lsb 0#32 = 32 ∧
  (∀ s : State, s.cfg.lzcZero = .datapath →
    exec (.lzc 0#32) s = .next { s with result := some 32#32 })

/-! ### The float composer -/

/-- 42_float_composer R56: a zero mantissa gives 0x00000000 whatever the sign and the offset are, under either
variant, and FBSET stores and answers it. -/
def Obligations.ZeroMantissaGivesPositiveZero : Prop :=
  ∀ (s : State) (variant : LzcVariant) (sign : Bool) (bpo : Word),
    compose variant sign bpo 0#32 = some 0x00000000#32 ∧
    exec (.fbset sign bpo 0#32) s = .next { s with fb := 0x00000000#32, result := some 0x00000000#32 }

/-- 42_float_composer R57: the closed form under `LZC_VARIANT = MSB`. For a mantissa of at most 24 bits with msb index
`h` the word is the sign, `(h - s(bpo) + 127) mod 256` and the bits below the top bit, left-aligned; no bit is
lost. -/
def Obligations.ComposeClosedForm : Prop :=
  ∀ (sign : Bool) (bpo m : Word) (h : Nat), IsMsbIndex m h → m.toNat ≤ 2 ^ 24 - 1 →
    h ≤ 23 ∧
    compose .msb sign bpo m =
      some (floatWord sign (BitVec.ofInt 8 (h - bpo.toInt + 127)) (BitVec.ofNat 23 (m.toNat * 2 ^ (23 - h)))) ∧
    m.toNat * 2 ^ (23 - h) < 2 ^ 24

/-- 42_float_composer section 2: the result is unspecified exactly when the index exceeds 23, which under
`LZC_VARIANT = MSB` means `u(m) >= 2^24`; then the whole word FBSET stores and answers is one free value, the
next of a counter (the model's choice of the form of `ANY32`, log 6). -/
def Obligations.WideMantissaIsUnspecified : Prop :=
  (∀ (variant : LzcVariant) (sign : Bool) (bpo m : Word), m ≠ 0#32 →
    (compose variant sign bpo m = none ↔ 23 < lzcIndex variant m)) ∧
  (∀ (sign : Bool) (bpo m : Word), compose .msb sign bpo m = none ↔ 2 ^ 24 ≤ m.toNat) ∧
  (∀ (s : State) (sign : Bool) (bpo m : Word), m ≠ 0#32 → 23 < lzcIndex s.cfg.lzcVariant m →
    exec (.fbset sign bpo m) s =
      .next { s with fb := Config.freeWord s.draws, result := some (Config.freeWord s.draws),
                     draws := s.draws + 1 })

/-- 42_float_composer R59: bits 30:23 of a composed word are `(e + 127) mod 256` for `e = L - s(bpo)`, under either
variant; only the low 8 bits of `bpo` can influence the result. -/
def Obligations.ExponentFieldWraps : Prop :=
  ∀ (variant : LzcVariant) (sign : Bool) (bpo m : Word),
    (∀ w, m ≠ 0#32 → compose variant sign bpo m = some w →
      ((w.extractLsb' 23 8).toNat : Int) = ((lzcIndex variant m : Int) - bpo.toInt + 127) % 256) ∧
    compose variant sign (BitVec.ofInt 32 (bpo.toInt + 256)) m = compose variant sign bpo m ∧
    (∀ bpo' : Word, bpo'.extractLsb' 0 8 = bpo.extractLsb' 0 8 →
      compose variant sign bpo' m = compose variant sign bpo m)

/-- 42_float_composer R60: the value of a word read as a single-precision number, in exact rational arithmetic. -/
def Obligations.FloatViewOfAWord : Prop :=
  ∀ w : Word,
    let S := w.getLsbD 31
    let E := (w.extractLsb' 23 8).toNat
    let F := (w.extractLsb' 0 23).toNat
    (1 ≤ E ∧ E ≤ 254 →
      (floatValue w).toRat? = some ((-1) ^ S.toNat * (1 + (F : ℚ) / 2 ^ 23) * 2 ^ ((E : ℤ) - 127))) ∧
    (E = 0 ∧ F = 0 → floatValue w = .zero S) ∧
    (E = 0 ∧ F ≠ 0 →
      (floatValue w).toRat? = some ((-1) ^ S.toNat * ((F : ℚ) / 2 ^ 23) * 2 ^ (-126 : ℤ))) ∧
    (E = 255 ∧ F = 0 → floatValue w = .infinity S) ∧
    (E = 255 ∧ F ≠ 0 → floatValue w = .nan)

/-- 42_float_composer section 4: FBSET replaces all of `FB.word` by the composed word and answers it, never reading
the old one; it never refuses; under MSB every mantissa below 2^24 has a specified result; where the result is open
one free value is drawn from a counter (the model's choice of the form of `ANY32`, log 6), stored and answered; a
later FBGET gives the stored word. The worked corner cases follow. -/
def Obligations.FbsetStoresTheComposedWord : Prop :=
  (∀ a b : Word,
    decode ⟨0x02#8, a, b⟩ = .ok (.fbset false b a) ∧ decode ⟨0x12#8, a, b⟩ = .ok (.fbset true b a)) ∧
  (∀ (s : State) (sign : Bool) (bpo m w : Word), compose s.cfg.lzcVariant sign bpo m = some w →
    exec (.fbset sign bpo m) s = .next { s with fb := w, result := some w }) ∧
  (∀ (sign : Bool) (bpo m : Word), m.toNat < 2 ^ 24 → ∃ w, compose .msb sign bpo m = some w) ∧
  (∀ (s : State) (sign : Bool) (bpo m : Word), compose s.cfg.lzcVariant sign bpo m = none →
    exec (.fbset sign bpo m) s =
      .next { s with fb := Config.freeWord s.draws, result := some (Config.freeWord s.draws),
                     draws := s.draws + 1 }) ∧
  (∀ (s t : State) (sign : Bool) (bpo m : Word), exec (.fbset sign bpo m) s = .next t →
    t.result = some t.fb ∧ exec .fbget t = .next t) ∧
  compose .msb false 0#32 1#32 = some 0x3F800000#32 ∧
  compose .msb true 0#32 1#32 = some 0xBF800000#32 ∧
  compose .msb false (BitVec.ofInt 32 (-1)) 1#32 = some 0x40000000#32 ∧
  compose .msb false 127#32 1#32 = some 0x00000000#32 ∧
  compose .msb false (BitVec.ofInt 32 (-128)) 1#32 = some 0x7F800000#32 ∧
  compose .msb false (BitVec.ofInt 32 (-129)) 1#32 = some 0x00000000#32 ∧
  compose .msb false 149#32 1#32 = some 0x75000000#32

/-- 42_float_composer R62: FBGET answers `FB.word` and changes nothing else; repeating it changes nothing. -/
def Obligations.FbgetAnswersFbWord : Prop :=
  (∀ a b : Word, decode ⟨0x03#8, a, b⟩ = .ok .fbget) ∧
  (∀ s : State, exec .fbget s = .next { s with result := some s.fb } ∧
    exec .fbget { s with result := some s.fb } = .next { s with result := some s.fb })

/-- 42_float_composer R63: the round trip under `LZC_VARIANT = MSB`. For a mantissa of at most 24 bits and a result in
the normal range the composed word reads as `(-1)^sign * u(m) * 2^(-s(bpo))`, with no rounding. -/
def Obligations.ComposedFloatReadsBackExactly : Prop :=
  ∀ (sign : Bool) (bpo m : Word) (h : Nat), IsMsbIndex m h → m.toNat ≤ 2 ^ 24 - 1 →
    1 ≤ (h : Int) - bpo.toInt + 127 → (h : Int) - bpo.toInt + 127 ≤ 254 →
    ∃ w, compose .msb sign bpo m = some w ∧
      (floatValue w).toRat? = some ((-1) ^ sign.toNat * (m.toNat : ℚ) * 2 ^ (-bpo.toInt))

/-- 42_float_composer R65: under `LZC_VARIANT = LSB` the mantissa field is always 0: the word is a power of two; a
lowest set bit above 23 gives no specified result. On mantissas of at most 24 bits the two variants agree exactly when
at most one bit is set. -/
def Obligations.LsbVariantComposesPowersOfTwo : Prop :=
  (∀ (sign : Bool) (bpo m : Word) (t : Nat), IsLsbIndex m t → t ≤ 23 →
    compose .lsb sign bpo m = some (floatWord sign (BitVec.ofInt 8 (t - bpo.toInt + 127)) 0#23)) ∧
  (∀ (sign : Bool) (bpo m : Word) (t : Nat), IsLsbIndex m t → 23 < t → compose .lsb sign bpo m = none) ∧
  (∀ (sign : Bool) (bpo m : Word), m.toNat < 2 ^ 24 →
    (compose .lsb sign bpo m = compose .msb sign bpo m ↔ setBitCount m ≤ 1)) ∧
  compose .msb false 0#32 3#32 = some 0x40400000#32 ∧ compose .lsb false 0#32 3#32 = some 0x3F800000#32

/-! ### The fixed-point load and read -/

/-- 43_fixed_point R67: construction from the real `m * 2^e`: the integer nearest to `v * 2^SHIFT`, ties by
`TIE_RULE`, if it fits the word; else no value is promised. -/
def Obligations.ConstructionRoundsToNearest : Prop :=
  ∀ (cfg : Config) (m e : Int), ∃ z : Int,
    IsRounding cfg.tieRule ((m : ℚ) * 2 ^ e * 2 ^ cfg.shift.val) z ∧
    (FitsWord z → fxFromReal cfg m e = some (BitVec.ofInt 32 z)) ∧
    (¬ FitsWord z → fxFromReal cfg m e = none)

/-- 43_fixed_point section 2: FXLD of a pattern that stands for the real `q` stores and answers the rounding of `q *
2^SHIFT` if it fits; of a NaN, an infinity or a value that does not fit it stores and answers one free value, the next
of a counter (the model's choice of the form of `ANY32`, log 6). It is allowed whether `FX.word` is written or not,
and marks it written. Zeros and subnormals give 0. -/
def Obligations.FxldLoadsTheRounding : Prop :=
  (∀ a b : Word, decode ⟨0x04#8, a, b⟩ = .ok (.fxld a)) ∧
  (∀ (s : State) (a : Word) (q : ℚ), (floatValue a).toRat? = some q →
    ∃ z : Int, IsRounding s.cfg.tieRule (q * 2 ^ s.cfg.shift.val) z ∧
      (FitsWord z → exec (.fxld a) s =
        .next { s with fx := BitVec.ofInt 32 z, fxWritten := true, result := some (BitVec.ofInt 32 z) }) ∧
      (¬ FitsWord z → exec (.fxld a) s =
        .next { s with fx := Config.freeWord s.draws, fxWritten := true,
                       result := some (Config.freeWord s.draws), draws := s.draws + 1 })) ∧
  (∀ (s : State) (a : Word), (floatValue a).toRat? = none → exec (.fxld a) s =
    .next { s with fx := Config.freeWord s.draws, fxWritten := true,
                   result := some (Config.freeWord s.draws), draws := s.draws + 1 }) ∧
  (∀ (s : State) (a : Word), a.extractLsb' 23 8 = 0#8 → exec (.fxld a) s =
    .next { s with fx := 0x00000000#32, fxWritten := true, result := some 0x00000000#32 })

/-- 43_fixed_point R67: the rounding is unique, so the two statements above name the word FXLD loads. -/
def Obligations.RoundingIsUnique : Prop :=
  ∀ (tie : TieRule) (q : ℚ) (y z : Int), IsRounding tie q y → IsRounding tie q z → y = z

/-- 43_fixed_point section 3: FXGET answers `FX.word` and changes nothing else.
REFUSE(fx_unwritten) of an unwritten register is `State.refuseFx`, a next state that is not defined (the model's
choice, log 21). -/
def Obligations.FxgetAnswersFxWord : Prop :=
  (∀ a b : Word, decode ⟨0x05#8, a, b⟩ = .ok .fxget) ∧
  (∀ s : State, s.fxWritten = true → exec .fxget s = .next { s with result := some s.fx }) ∧
  (∀ s : State, s.fxWritten = false → exec .fxget s = .next s.refuseFx)

/-! ### The fixed-point adder and multiplier -/

/-- 43_fixed_point section 4: FXADDI adds the integer `k` in the scale of the instance, modulo 2^32.
REFUSE(fx_unwritten) of an unwritten register is `State.refuseFx`, a next state that is not defined (the model's
choice, log 21). -/
def Obligations.FxaddiAddsTheScaledInteger : Prop :=
  (∀ a b : Word, decode ⟨0x06#8, a, b⟩ = .ok (.fxaddi a)) ∧
  (∀ (s : State) (k : Word), s.fxWritten = true → ∃ v : Word,
    v = BitVec.ofInt 32 (s.fx.toInt + k.toInt * 2 ^ s.cfg.shift.val) ∧
    exec (.fxaddi k) s = .next { s with fx := v, result := some v }) ∧
  (∀ (s : State) (k : Word), s.fxWritten = false → exec (.fxaddi k) s = .next s.refuseFx)

/-- 43_fixed_point section 4: FXSUBI subtracts the integer `k` in the scale of the instance, modulo 2^32; FXSUBI then
FXADDI of the same `k` restores the word.
REFUSE(fx_unwritten) of an unwritten register is `State.refuseFx`, a next state that is not defined (the model's
choice, log 21). -/
def Obligations.FxsubiSubtractsTheScaledInteger : Prop :=
  (∀ a b : Word, decode ⟨0x07#8, a, b⟩ = .ok (.fxsubi a)) ∧
  (∀ (s : State) (k : Word), s.fxWritten = true → ∃ v : Word,
    v = BitVec.ofInt 32 (s.fx.toInt - k.toInt * 2 ^ s.cfg.shift.val) ∧
    exec (.fxsubi k) s = .next { s with fx := v, result := some v }) ∧
  (∀ (s : State) (k : Word), s.fxWritten = false → exec (.fxsubi k) s = .next s.refuseFx) ∧
  (∀ (s : State) (k : Word), s.fxWritten = true →
    ∃ t u, exec (.fxsubi k) s = .next t ∧ exec (.fxaddi k) t = .next u ∧ u.fx = s.fx)

/-- 43_fixed_point section 4: FXADD adds the word, modulo 2^32, the same for every `SHIFT`.
REFUSE(fx_unwritten) of an unwritten register is `State.refuseFx`, a next state that is not defined (the model's
choice, log 21). -/
def Obligations.FxaddAddsTheWord : Prop :=
  (∀ a b : Word, decode ⟨0x08#8, a, b⟩ = .ok (.fxadd a)) ∧
  (∀ (s : State) (w : Word), s.fxWritten = true → ∃ v : Word,
    v = BitVec.ofNat 32 (s.fx.toNat + w.toNat) ∧
    exec (.fxadd w) s = .next { s with fx := v, result := some v }) ∧
  (∀ (s : State) (w : Word), s.fxWritten = false → exec (.fxadd w) s = .next s.refuseFx)

/-- 43_fixed_point section 4: FXSUB subtracts the word, modulo 2^32.
REFUSE(fx_unwritten) of an unwritten register is `State.refuseFx`, a next state that is not defined (the model's
choice, log 21). -/
def Obligations.FxsubSubtractsTheWord : Prop :=
  (∀ a b : Word, decode ⟨0x09#8, a, b⟩ = .ok (.fxsub a)) ∧
  (∀ (s : State) (w : Word), s.fxWritten = true → ∃ v : Word,
    v = BitVec.ofInt 32 (s.fx.toNat - w.toNat) ∧
    exec (.fxsub w) s = .next { s with fx := v, result := some v }) ∧
  (∀ (s : State) (w : Word), s.fxWritten = false → exec (.fxsub w) s = .next s.refuseFx)

/-- 43_fixed_point section 5: FXMULI keeps the low 32 bits of the product, which are the same for signed and unsigned
operands; no shift is applied.
REFUSE(fx_unwritten) of an unwritten register is `State.refuseFx`, a next state that is not defined (the model's
choice, log 21). -/
def Obligations.FxmuliMultipliesByTheInteger : Prop :=
  (∀ a b : Word, decode ⟨0x0A#8, a, b⟩ = .ok (.fxmuli a)) ∧
  (∀ (s : State) (k : Word), s.fxWritten = true → ∃ v : Word,
    v = BitVec.ofInt 32 (s.fx.toInt * k.toInt) ∧
    exec (.fxmuli k) s = .next { s with fx := v, result := some v }) ∧
  (∀ (s : State) (k : Word), s.fxWritten = false → exec (.fxmuli k) s = .next s.refuseFx) ∧
  (∀ x k : Word, BitVec.ofInt 32 (x.toInt * k.toInt) = BitVec.ofNat 32 (x.toNat * k.toNat))

/-- 43_fixed_point section 5: FXMUL multiplies and shifts right by `SHIFT`. Under W32 the product is cut to 32 bits,
read as two's complement, and divided by `2^SHIFT` with floor; under W64 the exact product is divided with floor and
then cut. REFUSE(fx_unwritten) of an unwritten register is `State.refuseFx`, a next state that is not defined (the
model's choice, log 21). -/
def Obligations.FxmulMultipliesAndShifts : Prop :=
  (∀ a b : Word, decode ⟨0x0B#8, a, b⟩ = .ok (.fxmul a)) ∧
  (∀ (s : State) (w : Word), s.fxWritten = true → ∃ v : Word,
    (s.cfg.mulIntermediate = .w32 →
      v = BitVec.ofInt 32 ⌊((BitVec.ofInt 32 (s.fx.toInt * w.toInt)).toInt : ℚ) / 2 ^ s.cfg.shift.val⌋) ∧
    (s.cfg.mulIntermediate = .w64 →
      v = BitVec.ofInt 32 ⌊((s.fx.toInt * w.toInt : Int) : ℚ) / 2 ^ s.cfg.shift.val⌋) ∧
    exec (.fxmul w) s = .next { s with fx := v, result := some v }) ∧
  (∀ (s : State) (w : Word), s.fxWritten = false → exec (.fxmul w) s = .next s.refuseFx)

/-- 43_fixed_point R80: the two readings of the product agree whenever the product fits 32 bits, and differ on
256.0 times 256.0 at `SHIFT = 8`. -/
def Obligations.ProductWidthsAgreeWithoutOverflow : Prop :=
  (∀ (cfg : Config) (x y : Word), FitsWord (x.toInt * y.toInt) →
    fxProduct { cfg with mulIntermediate := .w32 } x y = fxProduct { cfg with mulIntermediate := .w64 } x y) ∧
  (∀ (cfg : Config) (x y : Word),
    fxProduct { cfg with mulIntermediate := .w64 } x y =
      BitVec.ofInt 32 ⌊((x.toInt * y.toInt : Int) : ℚ) / 2 ^ cfg.shift.val⌋) ∧
  (∀ cfg : Config, cfg.shift = 8 →
    fxProduct { cfg with mulIntermediate := .w32 } 0x00010000#32 0x00010000#32 = 0#32 ∧
    fxProduct { cfg with mulIntermediate := .w64 } 0x00010000#32 0x00010000#32 = 0x01000000#32)

/-- 43_fixed_point R76: every arithmetic command works modulo 2^32, on the unsigned readings just as well, and
nothing saturates; only the right shift of FXMUL depends on the sign. -/
def Obligations.ArithmeticIsModulo32Bits : Prop :=
  ∀ (s : State) (k : Word), s.fxWritten = true →
    (∃ t, exec (.fxaddi k) s = .next t ∧
      t.fx.toNat = (s.fx.toNat + k.toNat * 2 ^ s.cfg.shift.val) % 2 ^ 32) ∧
    (∃ t, exec (.fxsubi k) s = .next t ∧
      (t.fx.toNat : Int) = (s.fx.toNat - k.toNat * 2 ^ s.cfg.shift.val) % 2 ^ 32) ∧
    (∃ t, exec (.fxadd k) s = .next t ∧ t.fx.toNat = (s.fx.toNat + k.toNat) % 2 ^ 32) ∧
    (∃ t, exec (.fxsub k) s = .next t ∧ (t.fx.toNat : Int) = (s.fx.toNat - k.toNat) % 2 ^ 32) ∧
    (∃ t, exec (.fxmuli k) s = .next t ∧ t.fx.toNat = (s.fx.toNat * k.toNat) % 2 ^ 32) ∧
    (∃ t, exec (.fxmul k) s = .next t ∧ (s.cfg.mulIntermediate = .w32 →
      t.fx = (BitVec.ofNat 32 (s.fx.toNat * k.toNat)).sshiftRight s.cfg.shift.val))

/-- 43_fixed_point section 6: once `FX.word` is written, and in a run that is not refused already (log 21), each
arithmetic command answers the word it has just written, and the next command of the host's stream (the model's choice,
log 1) works on that word. -/
def Obligations.ArithmeticChains : Prop :=
  ∀ (s t : State) (c d : Command) (rest : List Request) (i j : Instr),
    s.pending = .command c :: .command d :: rest → decode c = .ok i → decode d = .ok j →
    readsFx i = true → writesFx i = true → s.fxWritten = true → s.fxRefusals = 0 → step s = .next t →
    t.result = some t.fx ∧ t.pending = .command d :: rest ∧ step t = exec j { t with pending := rest }

/-- 43_fixed_point R81: exactness. Once `FX.word` is written, and where the mathematical result fits the word, the
commands act on the represented reals exactly, and FXMUL (no overflow of the product) rounds the product down to a
multiple of `2^(-SHIFT)`. -/
def Obligations.FixedPointIsExactWithoutOverflow : Prop :=
  ∀ (s t : State) (k : Word), s.fxWritten = true →
    (exec (.fxaddi k) s = .next t → FitsWord (s.fx.toInt + k.toInt * 2 ^ s.cfg.shift.val) →
      fxValue s.cfg t.fx = fxValue s.cfg s.fx + k.toInt) ∧
    (exec (.fxsubi k) s = .next t → FitsWord (s.fx.toInt - k.toInt * 2 ^ s.cfg.shift.val) →
      fxValue s.cfg t.fx = fxValue s.cfg s.fx - k.toInt) ∧
    (exec (.fxadd k) s = .next t → FitsWord (s.fx.toInt + k.toInt) →
      fxValue s.cfg t.fx = fxValue s.cfg s.fx + fxValue s.cfg k) ∧
    (exec (.fxsub k) s = .next t → FitsWord (s.fx.toInt - k.toInt) →
      fxValue s.cfg t.fx = fxValue s.cfg s.fx - fxValue s.cfg k) ∧
    (exec (.fxmuli k) s = .next t → FitsWord (s.fx.toInt * k.toInt) →
      fxValue s.cfg t.fx = fxValue s.cfg s.fx * k.toInt) ∧
    (exec (.fxmul k) s = .next t → FitsWord (s.fx.toInt * k.toInt) →
      fxValue s.cfg t.fx =
        (⌊fxValue s.cfg s.fx * fxValue s.cfg k * 2 ^ s.cfg.shift.val⌋ : ℚ) / 2 ^ s.cfg.shift.val)

/-! ### Frames and whole-machine rules -/

/-- 10_state R10 to R12, 70_reset_and_hazards R97: the frame of every command. The constants of the instance and the
rest of the stream are left; a free value is drawn only in the open cases; a refusal is counted only on a read of an
unwritten `FX.word` (log 21). But for such a read, after which the registers are not defined (60_exceptions section
5), a command that does not write `FB.word` leaves it, one that does not write `FX.word` leaves it and its mark, and a
writer of `FX.word` leaves it written. -/
def Obligations.FrameOfEveryCommand : Prop :=
  ∀ (i : Instr) (s t : State), exec i s = .next t →
    t.cfg = s.cfg ∧ t.pending = s.pending ∧ t.result.isSome = true ∧
    t.draws = s.draws + (if resultOpen s.cfg i = true then 1 else 0) ∧
    (readsFx i = true → s.fxWritten = false → t.fxRefusals = s.fxRefusals + 1) ∧
    (¬ (readsFx i = true ∧ s.fxWritten = false) →
      t.fxRefusals = s.fxRefusals ∧
      (writesFb i = false → t.fb = s.fb) ∧
      (writesFx i = false → t.fx = s.fx ∧ t.fxWritten = s.fxWritten) ∧
      (writesFx i = true → t.fxWritten = true))

/-- 10_state R18: no hidden state. Where its result is specified, a command's outcome, result and written word are the
same from any two states that agree on the constants of the instance and on the one register it reads. Of an unwritten
`FX.word` no result is specified (60_exceptions section 5). -/
def Obligations.NoHiddenState : Prop :=
  ∀ (i : Instr) (s₁ s₂ t₁ : State), s₁.cfg = s₂.cfg →
    (readsFx i = true → s₁.fx = s₂.fx ∧ s₁.fxWritten = true ∧ s₂.fxWritten = true) →
    (readsFb i = true → s₁.fb = s₂.fb) →
    resultOpen s₁.cfg i = false → exec i s₁ = .next t₁ →
    ∃ t₂, exec i s₂ = .next t₂ ∧ t₂.result = t₁.result ∧
      (writesFb i = true → t₂.fb = t₁.fb) ∧ (writesFx i = true → t₂.fx = t₁.fx)

/-- 70_reset_and_hazards R97: a command of the fixed-point group and a command of the other two groups, both with
specified results, may be issued in either order: the same registers and the same result of each. -/
def Obligations.GroupsInterleaveFreely : Prop :=
  ∀ (i j : Instr) (s t u : State),
    readsFx i = false → writesFx i = false → (readsFx j = true ∨ writesFx j = true) →
    resultOpen s.cfg i = false → resultOpen s.cfg j = false → (readsFx j = true → s.fxWritten = true) →
    exec i s = .next t → exec j t = .next u →
    ∃ t' u', exec j s = .next t' ∧ exec i t' = .next u' ∧
      u'.fb = u.fb ∧ u'.fx = u.fx ∧ u'.fxWritten = u.fxWritten ∧ u'.fxRefusals = u.fxRefusals ∧
      t'.result = u.result ∧ u'.result = t.result

/-- 10_state R16, 70_reset_and_hazards R93: `SHIFT` and the other constants of an instance never change, so a normative
configuration stays one. -/
def Obligations.ConstantsNeverChange : Prop :=
  ∀ s t : State, step s = .next t → t.cfg = s.cfg ∧ (s.cfg.Normative → t.cfg.Normative)

/-- The invariants below hold at reset: the instance is safe, which says that no refusal is counted, and its
configuration is normative (00_scope R5; log 4 and log 5 name the values). -/
def Obligations.ResetMeetsTheInvariants : Prop :=
  State.reset.Safe ∧ State.reset.fxRefusals = 0 ∧ State.reset.cfg.Normative

/-- 60_exceptions section 5, 70_reset_and_hazards R95: from every safe instance a step is a next state, never a refusal
and never a counted one (log 21), and the instance stays safe. -/
def Obligations.SafeInstancesStaySafe : Prop :=
  ∀ s : State, s.Safe → ∃ t, step s = .next t ∧ t.Safe ∧ t.fxRefusals = 0

/-- 70_reset_and_hazards R95: the one boot requirement, with defined control bytes, is exactly what a run without a
refusal needs. From a state with no refusal counted, a stream that meets it runs to its end, and none is counted on the
way; a stream that does not is refused for a reserved control byte, or ends with a REFUSE(fx_unwritten) counted
(log 21). A run that is refused already is never safe and stays refused. -/
def Obligations.SafeStreamsAreExactlyThoseThatRun : Prop :=
  ∀ s : State,
    (s.Safe → ∃ t, core.run s.pending.length s = .next t ∧ t.pending = [] ∧ t.fxRefusals = 0) ∧
    (¬ s.Safe → (∃ n, core.run s.pending.length s = .refused (.reservedEncoding n)) ∨
      ∃ t, core.run s.pending.length s = .next t ∧ t.pending = [] ∧ t.fxRefusals ≠ 0)

/-- 10_state R21: instances share nothing. A step of instance `i` is that instance's own step; every other instance is
left as it was, and the step is the same in any system in which instance `i` is the same. -/
def Obligations.InstancesShareNothing : Prop :=
  (∀ (sys sys' : System) (i : Fin sys.length), sys.stepAt i = .next sys' →
    ∃ t, step (sys.get i) = .next t ∧ sys'.length = sys.length ∧ sys'[i.val]? = some t ∧
      ∀ j : Nat, j ≠ i.val → sys'[j]? = sys[j]?) ∧
  (∀ (sys₁ sys₂ : System) (i₁ : Fin sys₁.length) (i₂ : Fin sys₂.length) (sys₁' : System),
    sys₁.get i₁ = sys₂.get i₂ → sys₁.stepAt i₁ = .next sys₁' →
    ∃ sys₂', sys₂.stepAt i₂ = .next sys₂' ∧ sys₂'[i₂.val]? = sys₁'[i₁.val]?)
end

