-- ==== Sys2Proof/Laws/Arith.lean ====
section
/-! SUPPORT. The word arithmetic of the fixed-point units on the integers it stands for. -/

namespace Sys2Proof.Machine

theorem ofInt_sub (a b : Int) : BitVec.ofInt 32 (a - b) = BitVec.ofInt 32 a - BitVec.ofInt 32 b := by
  rw [Int.sub_eq_add_neg, BitVec.ofInt_add, BitVec.ofInt_neg, BitVec.sub_eq_add_neg]

/-- An integer that fits the word is what the word reads as (43_fixed_point R66). -/
theorem toInt_ofInt_of_fits {z : Int} (h : FitsWord z) : (BitVec.ofInt 32 z).toInt = z := by
  obtain ⟨a, b⟩ := h
  rw [BitVec.toInt_ofInt]
  exact Int.bmod_eq_of_le (by norm_num at a ⊢; omega) (by norm_num at b ⊢; omega)

theorem fits_toInt (x : Word) : FitsWord x.toInt := by
  have h1 := @BitVec.toInt_lt 32 x
  have h2 := @BitVec.le_toInt 32 x
  norm_num at h1 h2
  constructor <;> norm_num <;> omega

theorem fits_ediv {z : Int} (h : FitsWord z) (n : Nat) : FitsWord (z / 2 ^ n) := by
  obtain ⟨a, b⟩ := h
  have hp : (0 : Int) < 2 ^ n := by positivity
  have hp1 : (1 : Int) ≤ 2 ^ n := hp
  constructor
  · exact Int.le_ediv_of_mul_le hp (by nlinarith)
  · have := Int.ediv_lt_of_lt_mul (a := z) (b := 2 ^ 31) hp (by nlinarith)
    omega

/-- The left shift of `k` by `SHIFT` multiplies by `2^SHIFT` modulo 2^32 (43_fixed_point R70). -/
theorem scaleInt_eq (cfg : Config) (k : Word) : scaleInt cfg k = BitVec.ofInt 32 (k.toInt * 2 ^ cfg.shift.val) := by
  rw [scaleInt, shiftLeft, BitVec.shiftLeft_eq_mul_twoPow, BitVec.ofInt_mul, BitVec.ofInt_toInt]
  congr 1
  have h : ((2 : Int) ^ cfg.shift.val) = ((2 ^ cfg.shift.val : Nat) : Int) := by push_cast; rfl
  rw [h, BitVec.ofInt_natCast]
  apply BitVec.eq_of_toNat_eq
  rw [BitVec.toNat_twoPow, BitVec.toNat_ofNat]

/-- The arithmetic right shift is division with floor (00_scope R7). -/
theorem shiftRightArith_eq (x : Word) (n : Nat) : shiftRightArith x n = BitVec.ofInt 32 (x.toInt / 2 ^ n) := by
  apply BitVec.eq_of_toInt_eq
  rw [toInt_ofInt_of_fits (fits_ediv (fits_toInt x) n), shiftRightArith, BitVec.toInt_sshiftRight,
    Int.shiftRight_eq_div_pow]
  norm_num

/-- Integer division by a power of two is the floor of the exact quotient. -/
theorem floor_div_pow (z : Int) (n : Nat) : ⌊(z : ℚ) / 2 ^ n⌋ = z / 2 ^ n := by
  have := Rat.floor_intCast_div_natCast z (2 ^ n)
  simpa using this

end Sys2Proof.Machine
end

