-- ==== Sys2Proof/Laws/Decode.lean ====
section
/-! SUPPORT. The decoder against the checks of a control byte and against the encoder. -/

namespace Sys2Proof

theorem unsignedForm_isOk (s : Bool) (i : Instr) : (unsignedForm s i).isOk = !s := by
  cases s <;> rfl

theorem unsignedForm_eq_ok {s : Bool} {i j : Instr} :
    unsignedForm s i = .ok j ↔ s = false ∧ i = j := by
  cases s <;> simp [unsignedForm]

/-- A control byte made of its three fields. -/
def ctlOf (zero : BitVec 3) (s : Bool) (op : BitVec 4) : Byte := zero ++ BitVec.ofBool s ++ op

/-- Every control byte is made of its three fields (30_encoding R33). -/
theorem ctlOf_fields (c : Command) : ctlOf c.zeroField c.sField c.opField = c.ctl := by
  have h : ∀ x : Byte, ctlOf (x.extractLsb' 5 3) (x.getLsbD 4) (x.extractLsb' 0 4) = x := by decide
  exact h c.ctl

/-- The instruction a command decodes to, by its `op` and `s` fields. -/
theorem decode_eq_ok {c : Command} {i : Instr} :
    decode c = .ok i ↔ c.zeroField = 0#3 ∧ decodeOp c.sField c.opField c.a c.b = .ok i := by
  unfold decode
  split <;> simp_all

/-- Decoding accepts exactly the well-formed commands (30_encoding R37). -/
theorem decode_isOk (c : Command) : (decode c).isOk = c.wellFormed := by
  have h : ∀ x : Byte, ∀ a b : Word, (decode ⟨x, a, b⟩).isOk = Command.wellFormed ⟨x, 0#32, 0#32⟩ := by
    intro x a b
    have hz : x.extractLsb' 5 3 = 0#3 ∨ x.extractLsb' 5 3 ≠ 0#3 := em _
    rcases hz with hz | hz
    · have hs : decodeOp (x.getLsbD 4) (x.extractLsb' 0 4) a b =
          decode ⟨x, a, b⟩ := by simp [decode, Command.zeroField, Command.sField, Command.opField, hz]
      rw [← hs]
      simp only [Command.wellFormed, Command.zeroFieldOk, Command.opOk, Command.signOk, hz]
      generalize x.getLsbD 4 = s
      generalize x.extractLsb' 0 4 = op
      have : ∀ (op : BitVec 4) (s : Bool), (decodeOp s op a b).isOk = (decide (op.toNat < 12) && (!s || op == 2#4)) := by
        intro op
        match op with
        | ⟨⟨n, hn⟩⟩ => interval_cases n <;> intro s <;> cases s <;> rfl
      simp [this]
    · simp [decode, Command.zeroField, hz, Command.wellFormed, Command.zeroFieldOk, Except.isOk, Except.toBool]
  exact h c.ctl c.a c.b

/-- The flat form loses nothing (30_encoding R33). -/
theorem Command.ofFlat_toFlat (c : Command) : Command.ofFlat c.toFlat = c := by
  obtain ⟨ctl, a, b⟩ := c
  simp only [Command.ofFlat, Command.toFlat, Command.mk.injEq]
  refine ⟨?_, ?_, ?_⟩ <;> ext k hk <;> rw [BitVec.getElem_extractLsb']
  · rw [BitVec.getLsbD_append, BitVec.getLsbD_append]
    simp [show ¬ 64 + k < 32 by omega, show ¬ 64 + k - 32 < 32 by omega,
      show 64 + k - 32 - 32 = k by omega, BitVec.getLsbD_eq_getElem hk]
  · rw [BitVec.getLsbD_append, BitVec.getLsbD_append]
    simp [hk]
  · rw [BitVec.getLsbD_append]
    simp [hk]

end Sys2Proof
end

