-- ==== Sys2Proof/Laws/Exec.lean ====
section
/-! SUPPORT. Each instruction as the shared operation it is one line over. -/

namespace Sys2Proof.Machine

variable (s : State)

theorem exec_popcnt (x : Word) : exec (.popcnt x) s = .next (s.answer (zext32 (popcount32 x))) := rfl

theorem exec_lzc (x : Word) :
    exec (.lzc x) s = .next ((s.spend (lzcResult s.cfg x)).answer (s.settle (lzcResult s.cfg x))) := rfl

theorem exec_fbset (sign : Bool) (bpo m : Word) :
    exec (.fbset sign bpo m) s =
      .next (((s.spend (compose s.cfg.lzcVariant sign bpo m)).writeFb
        (s.settle (compose s.cfg.lzcVariant sign bpo m))).answer
        (s.settle (compose s.cfg.lzcVariant sign bpo m))) := rfl

theorem exec_fbget : exec .fbget s = .next (s.answer s.fb) := rfl

theorem exec_fxld (v : Word) :
    exec (.fxld v) s =
      .next (((s.spend (fxFromPattern s.cfg v)).writeFx (s.settle (fxFromPattern s.cfg v))).answer
        (s.settle (fxFromPattern s.cfg v))) := rfl

theorem exec_fxget : exec .fxget s = s.withFx s.answer := rfl

theorem exec_fxaddi (k : Word) : exec (.fxaddi k) s = s.updateFx fun x => x + scaleInt s.cfg k := rfl

theorem exec_fxsubi (k : Word) : exec (.fxsubi k) s = s.updateFx fun x => x - scaleInt s.cfg k := rfl

theorem exec_fxadd (w : Word) : exec (.fxadd w) s = s.updateFx fun x => x + w := rfl

theorem exec_fxsub (w : Word) : exec (.fxsub w) s = s.updateFx fun x => x - w := rfl

theorem exec_fxmuli (k : Word) : exec (.fxmuli k) s = s.updateFx fun x => product32 x k := rfl

theorem exec_fxmul (w : Word) : exec (.fxmul w) s = s.updateFx fun x => fxProduct s.cfg x w := rfl

end Sys2Proof.Machine
end

