-- ==== Sys2Proof/Laws/Index.lean ====
section
/-! SUPPORT. The highest and the lowest set bit of a word. -/

namespace Sys2Proof.Machine

/-- The msb index is the one power of two that brackets the word (41_lzc R49). -/
theorem isMsbIndex_iff (x : Word) (h : Nat) : IsMsbIndex x h ↔ 2 ^ h ≤ x.toNat ∧ x.toNat < 2 ^ (h + 1) := by
  constructor
  · rintro ⟨hset, habove⟩
    exact ⟨Nat.ge_two_pow_of_testBit hset, Nat.lt_pow_two_of_testBit _ fun i hi => habove i (by omega)⟩
  · rintro ⟨hlo, hhi⟩
    refine ⟨?_, fun i hi => Nat.testBit_lt_two_pow (lt_of_lt_of_le hhi (Nat.pow_le_pow_right (by norm_num) hi))⟩
    have hq : x.toNat / 2 ^ h = 1 := by
      rw [Nat.div_eq_iff (by positivity)]
      rw [pow_succ] at hhi
      omega
    change x.toNat.testBit h = true
    rw [Nat.testBit_eq_decide_div_mod_eq]
    simp [hq]

theorem IsMsbIndex.unique {x : Word} {h k : Nat} (hh : IsMsbIndex x h) (hk : IsMsbIndex x k) : h = k := by
  rcases Nat.lt_trichotomy h k with hl | hl | hl
  · exact absurd hk.1 (by simp [hh.2 k hl])
  · exact hl
  · exact absurd hh.1 (by simp [hk.2 h hl])

theorem IsLsbIndex.unique {x : Word} {h k : Nat} (hh : IsLsbIndex x h) (hk : IsLsbIndex x k) : h = k := by
  rcases Nat.lt_trichotomy h k with hl | hl | hl
  · exact absurd hh.1 (by simp [hk.2 h hl])
  · exact hl
  · exact absurd hk.1 (by simp [hh.2 k hl])

theorem IsMsbIndex.lt {x : Word} {h : Nat} (hh : IsMsbIndex x h) : h < 32 := by
  by_contra hc
  exact absurd hh.1 (by simp [BitVec.getLsbD_of_ge x h (by omega)])

theorem IsMsbIndex.ne_zero {x : Word} {h : Nat} (hh : IsMsbIndex x h) : x ≠ 0#32 := by
  rintro rfl
  exact absurd hh.1 (by simp)

/-- A word that is not 0 has an msb index. -/
theorem exists_isMsbIndex {x : Word} (hx : x ≠ 0#32) : ∃ h, IsMsbIndex x h := by
  have h0 : x.toNat ≠ 0 := fun h => hx (BitVec.eq_of_toNat_eq (by simpa using h))
  exact ⟨Nat.log2 x.toNat, (isMsbIndex_iff _ _).2 ⟨Nat.log2_self_le h0, Nat.lt_log2_self⟩⟩

end Sys2Proof.Machine
end

