-- ==== Sys2Proof/Laws/State.lean ====
section
/-! SUPPORT. What each named operation leaves in each field of the state. -/

namespace Sys2Proof.Machine

section
variable (s : State) (w : Word) (v : Option Word) (q : Request)

@[simp] theorem State.answer_cfg : (s.answer w).cfg = s.cfg := rfl
@[simp] theorem State.answer_fb : (s.answer w).fb = s.fb := rfl
@[simp] theorem State.answer_fx : (s.answer w).fx = s.fx := rfl
@[simp] theorem State.answer_fxWritten : (s.answer w).fxWritten = s.fxWritten := rfl
@[simp] theorem State.answer_fxRefusals : (s.answer w).fxRefusals = s.fxRefusals := rfl
@[simp] theorem State.answer_result : (s.answer w).result = some w := rfl
@[simp] theorem State.answer_pending : (s.answer w).pending = s.pending := rfl
@[simp] theorem State.answer_draws : (s.answer w).draws = s.draws := rfl

@[simp] theorem State.writeFb_cfg : (s.writeFb w).cfg = s.cfg := rfl
@[simp] theorem State.writeFb_fb : (s.writeFb w).fb = w := rfl
@[simp] theorem State.writeFb_fx : (s.writeFb w).fx = s.fx := rfl
@[simp] theorem State.writeFb_fxWritten : (s.writeFb w).fxWritten = s.fxWritten := rfl
@[simp] theorem State.writeFb_fxRefusals : (s.writeFb w).fxRefusals = s.fxRefusals := rfl
@[simp] theorem State.writeFb_result : (s.writeFb w).result = s.result := rfl
@[simp] theorem State.writeFb_pending : (s.writeFb w).pending = s.pending := rfl
@[simp] theorem State.writeFb_draws : (s.writeFb w).draws = s.draws := rfl

@[simp] theorem State.writeFx_cfg : (s.writeFx w).cfg = s.cfg := rfl
@[simp] theorem State.writeFx_fb : (s.writeFx w).fb = s.fb := rfl
@[simp] theorem State.writeFx_fx : (s.writeFx w).fx = w := rfl
@[simp] theorem State.writeFx_fxWritten : (s.writeFx w).fxWritten = true := rfl
@[simp] theorem State.writeFx_fxRefusals : (s.writeFx w).fxRefusals = s.fxRefusals := rfl
@[simp] theorem State.writeFx_result : (s.writeFx w).result = s.result := rfl
@[simp] theorem State.writeFx_pending : (s.writeFx w).pending = s.pending := rfl
@[simp] theorem State.writeFx_draws : (s.writeFx w).draws = s.draws := rfl

@[simp] theorem State.refuseFx_cfg : s.refuseFx.cfg = s.cfg := rfl
@[simp] theorem State.refuseFx_fb : s.refuseFx.fb = Config.undefinedFb s.fxRefusals := rfl
@[simp] theorem State.refuseFx_fx : s.refuseFx.fx = Config.undefinedFx s.fxRefusals := rfl
@[simp] theorem State.refuseFx_fxWritten : s.refuseFx.fxWritten = Config.undefinedMark s.fxRefusals := rfl
@[simp] theorem State.refuseFx_fxRefusals : s.refuseFx.fxRefusals = s.fxRefusals + 1 := rfl
@[simp] theorem State.refuseFx_result : s.refuseFx.result = some (Config.undefinedResult s.fxRefusals) := rfl
@[simp] theorem State.refuseFx_pending : s.refuseFx.pending = s.pending := rfl
@[simp] theorem State.refuseFx_draws : s.refuseFx.draws = s.draws := rfl

@[simp] theorem State.spend_cfg : (s.spend v).cfg = s.cfg := by cases v <;> rfl
@[simp] theorem State.spend_fb : (s.spend v).fb = s.fb := by cases v <;> rfl
@[simp] theorem State.spend_fx : (s.spend v).fx = s.fx := by cases v <;> rfl
@[simp] theorem State.spend_fxWritten : (s.spend v).fxWritten = s.fxWritten := by cases v <;> rfl
@[simp] theorem State.spend_fxRefusals : (s.spend v).fxRefusals = s.fxRefusals := by cases v <;> rfl
@[simp] theorem State.spend_result : (s.spend v).result = s.result := by cases v <;> rfl
@[simp] theorem State.spend_pending : (s.spend v).pending = s.pending := by cases v <;> rfl
theorem State.spend_draws : (s.spend v).draws = s.draws + (if v.isNone then 1 else 0) := by cases v <;> rfl

@[simp] theorem State.spend_some : s.spend (some w) = s := rfl
@[simp] theorem State.settle_some : s.settle (some w) = w := rfl
@[simp] theorem State.spend_none : s.spend none = { s with draws := s.draws + 1 } := rfl
@[simp] theorem State.settle_none : s.settle none = Config.freeWord s.draws := rfl

@[simp] theorem State.applyReset_cfg : s.applyReset.cfg = s.cfg := rfl
@[simp] theorem State.applyReset_fb : s.applyReset.fb = 0#32 := rfl
@[simp] theorem State.applyReset_fxWritten : s.applyReset.fxWritten = false := rfl
@[simp] theorem State.applyReset_fxRefusals : s.applyReset.fxRefusals = s.fxRefusals := rfl
@[simp] theorem State.applyReset_result : s.applyReset.result = none := rfl
@[simp] theorem State.applyReset_pending : s.applyReset.pending = s.pending := rfl
@[simp] theorem State.applyReset_draws : s.applyReset.draws = s.draws + 1 := rfl

@[simp] theorem State.consume_cfg : s.consume.cfg = s.cfg := rfl
@[simp] theorem State.consume_fb : s.consume.fb = s.fb := rfl
@[simp] theorem State.consume_fx : s.consume.fx = s.fx := rfl
@[simp] theorem State.consume_fxWritten : s.consume.fxWritten = s.fxWritten := rfl
@[simp] theorem State.consume_fxRefusals : s.consume.fxRefusals = s.fxRefusals := rfl
@[simp] theorem State.consume_result : s.consume.result = s.result := rfl
@[simp] theorem State.consume_pending : s.consume.pending = s.pending.tail := rfl
@[simp] theorem State.consume_draws : s.consume.draws = s.draws := rfl

@[simp] theorem State.issue_cfg : (s.issue q).cfg = s.cfg := rfl
@[simp] theorem State.issue_fb : (s.issue q).fb = s.fb := rfl
@[simp] theorem State.issue_fx : (s.issue q).fx = s.fx := rfl
@[simp] theorem State.issue_fxWritten : (s.issue q).fxWritten = s.fxWritten := rfl
@[simp] theorem State.issue_fxRefusals : (s.issue q).fxRefusals = s.fxRefusals := rfl
@[simp] theorem State.issue_result : (s.issue q).result = s.result := rfl
@[simp] theorem State.issue_pending : (s.issue q).pending = s.pending ++ [q] := rfl
@[simp] theorem State.issue_draws : (s.issue q).draws = s.draws := rfl

end

end Sys2Proof.Machine
end

