-- ==== Sys2Proof/Laws/Ops.lean ====
section
/-! SUPPORT. What each shared operation can do, said once. -/

namespace Sys2Proof.Machine

theorem State.withFx_written {s : State} (k : Word → State) (h : s.fxWritten = true) :
    s.withFx k = .next (k s.fx) := by
  simp [State.withFx, h]

theorem State.withFx_unwritten {s : State} (k : Word → State) (h : s.fxWritten = false) :
    s.withFx k = .next s.refuseFx := by
  simp [State.withFx, h]

/-- In a run without a refusal a step is what it was asked for. -/
theorem State.keepRefusal_clean {s : State} (o : Host.Outcome State Fault Refusal) (h : s.fxRefusals = 0) :
    s.keepRefusal o = o := by
  simp [State.keepRefusal, h]

/-- In a refused run a step answers a state that is not defined, whatever it was asked for. -/
theorem State.keepRefusal_refused {s : State} (o : Host.Outcome State Fault Refusal) (h : s.fxRefusals ≠ 0) :
    s.keepRefusal o = .next s.refuseFx := by
  simp [State.keepRefusal, h]

/-- What a command that reads `FX.word` can do, said once: the register is written and it goes on with its value, or
it is unwritten and the outcome is `REFUSE(fx_unwritten)`. -/
theorem State.withFx_cases (s : State) (k : Word → State) :
    (s.fxWritten = true ∧ s.withFx k = .next (k s.fx)) ∨ (s.fxWritten = false ∧ s.withFx k = .next s.refuseFx) := by
  cases h : s.fxWritten
  · exact .inr ⟨rfl, s.withFx_unwritten k h⟩
  · exact .inl ⟨rfl, s.withFx_written k h⟩

/-- An arithmetic command on a written register: the new word is both stored and answered, and nothing else
changes. -/
theorem State.updateFx_written {s : State} (f : Word → Word) (h : s.fxWritten = true) :
    s.updateFx f = .next { s with fx := f s.fx, result := some (f s.fx) } := by
  rw [State.updateFx, State.withFx_written _ h]
  simp [State.answer, State.writeFx, h]

theorem State.updateFx_unwritten {s : State} (f : Word → Word) (h : s.fxWritten = false) :
    s.updateFx f = .next s.refuseFx :=
  State.withFx_unwritten _ h

/-- A step carries out the request at the head of the stream. -/
theorem step_cons {s : State} {q : Request} {rest : List Request} (h : s.pending = q :: rest) :
    step s = carryOut q { s with pending := rest } := by
  simp [step, h, State.consume]

theorem step_nil {s : State} (h : s.pending = []) : step s = s.keepRefusal (.next s) := by
  simp [step, h, idle]

theorem runCommand_ok {c : Command} {i : Instr} (s : State) (h : decode c = .ok i) :
    runCommand c s = s.keepRefusal (exec i s) := by
  simp [runCommand, h]

theorem runCommand_error {c : Command} {e : Reserved} (s : State) (h : decode c = .error e) :
    runCommand c s = .refused (.reservedEncoding s.fxRefusals) := by
  simp [runCommand, h]

/-- What a step can do, said once: it waits, resets or runs the decoded command, each unless the run is refused
already, or it refuses a reserved command. -/
theorem step_cases (s : State) :
    (s.pending = [] ∧ step s = s.keepRefusal (.next s)) ∨
    (∃ rest, s.pending = .reset :: rest ∧
      step s = { s with pending := rest }.keepRefusal (.next { s with pending := rest }.applyReset)) ∨
    (∃ c rest i, s.pending = .command c :: rest ∧ decode c = .ok i ∧
      step s = { s with pending := rest }.keepRefusal (exec i { s with pending := rest })) ∨
    (∃ c rest e, s.pending = .command c :: rest ∧ decode c = .error e ∧
      step s = .refused (.reservedEncoding s.fxRefusals)) := by
  match hp : s.pending with
  | [] => exact .inl ⟨rfl, step_nil hp⟩
  | .reset :: rest => exact .inr (.inl ⟨rest, rfl, step_cons hp⟩)
  | .command c :: rest =>
    match hd : decode c with
    | .ok i => exact .inr (.inr (.inl ⟨c, rest, i, rfl, hd, (step_cons hp).trans (runCommand_ok _ hd)⟩))
    | .error e => exact .inr (.inr (.inr ⟨c, rest, e, rfl, hd, (step_cons hp).trans (runCommand_error _ hd)⟩))

/-- What a step can do in a run without a refusal. -/
theorem step_clean {s : State} (h0 : s.fxRefusals = 0) :
    (s.pending = [] ∧ step s = .next s) ∨
    (∃ rest, s.pending = .reset :: rest ∧ step s = .next { s with pending := rest }.applyReset) ∨
    (∃ c rest i, s.pending = .command c :: rest ∧ decode c = .ok i ∧ step s = exec i { s with pending := rest }) ∨
    (∃ c rest e, s.pending = .command c :: rest ∧ decode c = .error e ∧ step s = .refused (.reservedEncoding 0)) := by
  have clean (o) (rest) := State.keepRefusal_clean (s := { s with pending := rest }) o h0
  rcases step_cases s with ⟨hp, h⟩ | ⟨rest, hp, h⟩ | ⟨c, rest, i, hp, hd, h⟩ | ⟨c, rest, e, hp, hd, h⟩
  · exact .inl ⟨hp, h.trans (clean _ _)⟩
  · exact .inr (.inl ⟨rest, hp, h.trans (clean _ _)⟩)
  · exact .inr (.inr (.inl ⟨c, rest, i, hp, hd, h.trans (clean _ _)⟩))
  · exact .inr (.inr (.inr ⟨c, rest, e, hp, hd, h0 ▸ h⟩))

/-- What a step can do in a refused run: it answers a state that is not defined, or it refuses a reserved command. -/
theorem step_refused {s : State} (h0 : s.fxRefusals ≠ 0) :
    ((∀ c rest, s.pending = .command c :: rest → (decode c).isOk = true) ∧
      step s = .next { s with pending := s.pending.tail }.refuseFx) ∨
    (∃ c rest e, s.pending = .command c :: rest ∧ decode c = .error e ∧
      step s = .refused (.reservedEncoding s.fxRefusals)) := by
  have kept (o) (rest) := State.keepRefusal_refused (s := { s with pending := rest }) o h0
  rcases step_cases s with ⟨hp, h⟩ | ⟨rest, hp, h⟩ | ⟨c, rest, i, hp, hd, h⟩ | ⟨c, rest, e, hp, hd, h⟩
  · exact .inl ⟨by simp [hp], by rw [h, hp, List.tail_nil, ← hp]; exact kept _ _⟩
  · exact .inl ⟨by simp [hp], by rw [h, hp]; exact kept _ _⟩
  · refine .inl ⟨fun c' rest' h' => ?_, by rw [h, hp]; exact kept _ _⟩
    obtain ⟨rfl, -⟩ : c = c' ∧ rest = rest' := by simpa [hp] using h'
    rw [hd]; rfl
  · exact .inr ⟨c, rest, e, hp, hd, h⟩

end Sys2Proof.Machine
end

