-- ==== Sys2Proof/Laws/PerInstr.lean ====
section
/-! SUPPORT. What holds of every instruction as syntax, one lemma per constructor. -/

namespace Sys2Proof.Laws.RoundTrip

/-- The command an instruction is encoded as decodes to it (30_encoding R33 to R35). -/
def Statement (i : Instr) : Prop := decode (encode i) = .ok i

theorem every (i : Instr) : Statement i := by
  cases i with
  | fbset sign bpo m => cases sign <;> simp [Statement, decode, decodeOp, encode, Instr.ctl, Instr.portA,
      Instr.portB, Command.zeroField, Command.sField, Command.opField]
  | _ => simp [Statement, decode, decodeOp, unsignedForm, encode, Instr.ctl, Instr.portA, Instr.portB,
      Command.zeroField, Command.sField, Command.opField]

theorem popcnt (x : Word) : Statement (.popcnt x) := every _
theorem lzc (x : Word) : Statement (.lzc x) := every _
theorem fbset (sign : Bool) (bpo m : Word) : Statement (.fbset sign bpo m) := every _
theorem fbget : Statement .fbget := every _
theorem fxld (v : Word) : Statement (.fxld v) := every _
theorem fxget : Statement .fxget := every _
theorem fxaddi (k : Word) : Statement (.fxaddi k) := every _
theorem fxsubi (k : Word) : Statement (.fxsubi k) := every _
theorem fxadd (w : Word) : Statement (.fxadd w) := every _
theorem fxsub (w : Word) : Statement (.fxsub w) := every _
theorem fxmuli (k : Word) : Statement (.fxmuli k) := every _
theorem fxmul (w : Word) : Statement (.fxmul w) := every _

end Sys2Proof.Laws.RoundTrip
end

