-- ==== Sys2Proof/Machine/Flags.lean ====
section
/-! DEFINITION. Flags. The block has none: "No command sets a carry, overflow, zero, sign or sticky flag", and
"A model must not add an overflow or inexact indication to any command" (10_state R15). So there is no flag
computation, and this file declares nothing. -/
end

