-- ==== Sys2Proof/Tests/Slice0.lean ====
section
/-! SUPPORT. Small tests on fixed values, each from the spec's own examples (95_test_vectors, cited by its part or
by the document's number S1 to S17), and a witness for the hypotheses of each statement that has any. -/

namespace Sys2Proof.Tests

open Sys2Proof Sys2Proof.Machine

/-- The configuration of the test vectors: `SHIFT = 8`, MSB, AWAY, W32. -/
def config8 : Config := ⟨8, .msb, .any, .away, .w32⟩

/-- An instance of that configuration whose `FX.word` is written and holds `x`. -/
def unit8 (x : Word) : State := ⟨config8, 0x55#32, x, true, 0, none, [], 0⟩

/-- The same instance before any FXLD. -/
def fresh8 : State := ⟨config8, 0#32, 0#32, false, 0, none, [], 0⟩

def resultOf (o : Host.Outcome State Fault Refusal) : Option Word :=
  match o with
  | .next s => s.result
  | .fault _ => none
  | .refused _ => none

def fbOf (o : Host.Outcome State Fault Refusal) : Option Word :=
  match o with
  | .next s => some s.fb
  | .fault _ => none
  | .refused _ => none

def fxOf (o : Host.Outcome State Fault Refusal) : Option Word :=
  match o with
  | .next s => some s.fx
  | .fault _ => none
  | .refused _ => none

def drawsOf (o : Host.Outcome State Fault Refusal) : Option Nat :=
  match o with
  | .next s => some s.draws
  | .fault _ => none
  | .refused _ => none

def recordOf (o : Host.Outcome State Fault Refusal) : Option Nat :=
  match o with
  | .next s => some s.fxRefusals
  | .fault _ => none
  | .refused _ => none

def refusalOf (o : Host.Outcome State Fault Refusal) : Option Refusal :=
  match o with
  | .next _ => none
  | .fault _ => none
  | .refused r => some r

/-! ### Well-formedness: one ill-formed command for each check (30_encoding R37; P6 group e) -/

theorem test_wellFormed : Command.wellFormed ⟨0x12#8, 0#32, 0#32⟩ = true := by decide
theorem test_illFormed_zeroField : Command.zeroFieldOk ⟨0x22#8, 1#32, 0#32⟩ = false := by decide
theorem test_illFormed_op : Command.opOk ⟨0x0C#8, 0#32, 0#32⟩ = false := by decide
theorem test_illFormed_sign : Command.signOk ⟨0x11#8, 8#32, 0#32⟩ = false := by decide
theorem test_refuses_zeroField : decode ⟨0x22#8, 1#32, 0#32⟩ = .error .zeroField := by decide
theorem test_refuses_op : decode ⟨0x0C#8, 0#32, 0#32⟩ = .error .opcode := by decide
theorem test_refuses_sign : decode ⟨0x11#8, 8#32, 0#32⟩ = .error .signOutsideFbset := by decide

/-! ### Decoding: the flat words of programs P1 to P5 -/

theorem test_decode_popcnt : decode (.ofFlat 0x00_00000015_00000000#72) = .ok (.popcnt 0x15#32) := by decide
theorem test_decode_lzc : decode (.ofFlat 0x01_3FA80000_00000000#72) = .ok (.lzc 0x3FA80000#32) := by decide
theorem test_decode_fbset :
    decode (.ofFlat 0x02_00000015_00000004#72) = .ok (.fbset false 0x4#32 0x15#32) := by decide
theorem test_decode_fbset_negative :
    decode (.ofFlat 0x12_00000003_00000001#72) = .ok (.fbset true 0x1#32 0x3#32) := by decide
theorem test_decode_fbget : decode (.ofFlat 0x03_00000000_00000000#72) = .ok .fbget := by decide
theorem test_decode_fxld : decode (.ofFlat 0x04_BFC00000_00000000#72) = .ok (.fxld 0xBFC00000#32) := by decide
theorem test_decode_fxget : decode (.ofFlat 0x05_00000000_00000000#72) = .ok .fxget := by decide
theorem test_decode_fxaddi : decode (.ofFlat 0x06_00000003_00000000#72) = .ok (.fxaddi 0x3#32) := by decide
theorem test_decode_fxsubi : decode (.ofFlat 0x07_00000004_00000000#72) = .ok (.fxsubi 0x4#32) := by decide
theorem test_decode_fxadd : decode (.ofFlat 0x08_00000180_00000000#72) = .ok (.fxadd 0x180#32) := by decide
theorem test_decode_fxsub : decode (.ofFlat 0x09_00000300_00000000#72) = .ok (.fxsub 0x300#32) := by decide
theorem test_decode_fxmuli : decode (.ofFlat 0x0A_FFFFFFFF_00000000#72) = .ok (.fxmuli 0xFFFFFFFF#32) := by decide
theorem test_decode_fxmul : decode (.ofFlat 0x0B_FFFFFE80_00000000#72) = .ok (.fxmul 0xFFFFFE80#32) := by decide

theorem test_tableWord : decodeTableWord 8 0x12 = some (.fbset true 0#32 0#32) := by decide
theorem test_tableWord_flat : decodeTableWord 72 0x0B_00000300_00000000 = some (.fxmul 0x300#32) := by decide

/-! ### One step of each command -/

/-- S2. -/
theorem test_popcnt_all : resultOf (exec (.popcnt 0xFFFFFFFF#32) fresh8) = some 32#32 := by decide
/-- 2.1. -/
theorem test_popcnt_mixed : resultOf (exec (.popcnt 0xDEADBEEF#32) fresh8) = some 24#32 := by decide
/-- 2.2. -/
theorem test_lzc_msb : resultOf (exec (.lzc 0x12345678#32) fresh8) = some 28#32 := by decide
/-- 2.2, column LSB. -/
theorem test_lzc_lsb :
    resultOf (exec (.lzc 0x12345678#32) { fresh8 with cfg := { config8 with lzcVariant := .lsb } }) = some 3#32 := by
  decide
/-- 2.3: `FBSET 1, 1, 3`. -/
theorem test_fbset_negative : fbOf (exec (.fbset true 1#32 3#32) fresh8) = some 0xBFC00000#32 := by decide
/-- 2.3: the exponent wraps to 234. -/
theorem test_fbset_wrap : resultOf (exec (.fbset false 149#32 1#32) fresh8) = some 0x75000000#32 := by decide
/-- P6 group c: the narrowest mantissa with an unspecified result draws one value. -/
theorem test_fbset_wide : drawsOf (exec (.fbset false 0#32 0x01000000#32) fresh8) = some 1 := by decide
/-- S17. -/
theorem test_fbget_reset : resultOf (exec .fbget State.reset) = some 0#32 := by decide
/-- 2.4: a negative tie away from zero. -/
theorem test_fxld_tie : fxOf (exec (.fxld 0xBC200000#32) fresh8) = some 0xFFFFFFFD#32 := by decide
/-- 2.4: -8388608.0 is the most negative value that fits. -/
theorem test_fxld_lowest : fxOf (exec (.fxld 0xCB000000#32) fresh8) = some 0x80000000#32 := by decide
/-- P6 group a: the outcome REFUSE(fx_unwritten) is counted. -/
theorem test_fxget_unwritten : recordOf (exec .fxget State.reset) = some 1 := by decide
/-- S11. -/
theorem test_fxget : resultOf (exec .fxget (unit8 0x500#32)) = some 1280#32 := by decide
/-- 2.5: the high byte of `k` is lost by the shift. -/
theorem test_fxaddi : fxOf (exec (.fxaddi 0x00FFFFFF#32) (unit8 0#32)) = some 0xFFFFFF00#32 := by decide
/-- 2.5: wraps from the most negative word. -/
theorem test_fxsubi : fxOf (exec (.fxsubi 1#32) (unit8 0x80000000#32)) = some 0x7FFFFF00#32 := by decide
/-- 2.5. -/
theorem test_fxadd : fxOf (exec (.fxadd 1#32) (unit8 0x7FFFFFFF#32)) = some 0x80000000#32 := by decide
/-- 2.5: the order of the operands. -/
theorem test_fxsub : fxOf (exec (.fxsub 0x300#32) (unit8 0x200#32)) = some 0xFFFFFF00#32 := by decide
/-- 2.6. -/
theorem test_fxmuli : fxOf (exec (.fxmuli 0x9ABCDEF0#32) (unit8 0x12345678#32)) = some 0x242D2080#32 := by decide
/-- 2.6: the product reads negative under W32. -/
theorem test_fxmul_w32 : fxOf (exec (.fxmul 0x10000#32) (unit8 0x8000#32)) = some 0xFF800000#32 := by decide
/-- 2.6: the same under W64. -/
theorem test_fxmul_w64 :
    fxOf (exec (.fxmul 0x10000#32) { unit8 0x8000#32 with cfg := { config8 with mulIntermediate := .w64 } }) =
      some 0x00800000#32 := by
  decide
/-- P6 group f: decode is checked before the register. -/
theorem test_step_reserved_first : refusalOf (step (State.reset.withFetchWord 8 0x0D)) = some (.reservedEncoding 0) := by
  decide
/-- R93: a reset request clears `FB.word`. -/
theorem test_step_reset : fbOf (step ((unit8 1#32).issue .reset)) = some 0#32 := by decide

/-! ### Witnesses: states and operands that meet the hypotheses of the statements -/

theorem witness_ReservedControlBytesAreRefused :
    (fresh8.issue (.command ⟨0xE0#8, 0#32, 0#32⟩)).pending = .command ⟨0xE0#8, 0#32, 0#32⟩ :: [] ∧
    (decode ⟨0x20#8, 0#32, 0#32⟩).isOk = false ∧ (decode ⟨0xE0#8, 0#32, 0#32⟩).isOk = false ∧
    (decode ⟨0x0C#8, 0#32, 0#32⟩).isOk = false ∧ (decode ⟨0x0F#8, 0#32, 0#32⟩).isOk = false ∧
    (decode ⟨0x10#8, 0#32, 0#32⟩).isOk = false ∧ (decode ⟨0x1B#8, 0#32, 0#32⟩).isOk = false := by decide

theorem witness_DecodedCommandsEncodeBack :
    decode ⟨0x12#8, 3#32, 1#32⟩ = .ok (.fbset true 1#32 3#32) ∧ usesA (.fbset true 1#32 3#32) = true ∧
    usesB (.fbset true 1#32 3#32) = true := by decide

theorem witness_IgnoredPortsDoNotMatter :
    decode ⟨0x04#8, 3#32, 1#32⟩ = .ok (.fxld 3#32) ∧ usesA (.fxld 3#32) = true ∧ usesB (.fxld 3#32) = false ∧
    decode ⟨0x04#8, 3#32, 9#32⟩ = .ok (.fxld 3#32) := by decide

theorem witness_StepRunsTheDecodedCommand :
    (fresh8.issue (.command ⟨0x03#8, 0#32, 0#32⟩)).pending = .command ⟨0x03#8, 0#32, 0#32⟩ :: [] ∧
    decode ⟨0x03#8, 0#32, 0#32⟩ = .ok .fbget := by decide

theorem witness_PlacedTableWordRunsNext :
    decodeTableWord 8 0x0B = some (.fxmul 0#32) ∧ decodeTableWord 72 0x00_00000001_00000000 = some (.popcnt 1#32) := by
  decide

theorem witness_TheBlockWaitsForTheHost :
    State.reset.pending = [] ∧ decode ⟨0x00#8, 7#32, 0#32⟩ = .ok (.popcnt 7#32) := by decide

/-- Each outcome of R88: waiting, reset, reserved, unwritten, open, specified. -/
theorem witness_OutcomesOfAStep :
    fresh8.pending = [] ∧ (fresh8.issue .reset).pending = [.reset] ∧
    refusalOf (step (fresh8.withFetchWord 8 0xFF)) = some (.reservedEncoding 0) ∧
    recordOf (step (fresh8.withFetchWord 8 0x05)) = some 1 ∧
    recordOf (step (fresh8.withFetchWord 8 0x04)) = some 0 ∧
    resultOpen config8 (.lzc 0#32) = true ∧ resultOpen config8 (.fbset true 0#32 0x01000000#32) = true ∧
    resultOpen config8 (.fxld 0x4B000000#32) = true ∧ resultOpen config8 (.fxld 0x4AFFFFFF#32) = false ∧
    (readsFx (.fxld 0#32) && !fresh8.fxWritten) = false := by decide

/-- A run on from a counted refusal, and one that a reserved control byte ends: the count is kept. -/
theorem witness_OutcomesOfAStep_record :
    (∃ t, core.run 1 { fresh8 with fxRefusals := 3, pending := [.reset] } = .next t) ∧
    core.run 2 ({ fresh8 with fxRefusals := 3 }.withFetchWord 8 0xFF) = .refused (.reservedEncoding 3) :=
  ⟨⟨_, rfl⟩, rfl⟩

theorem witness_OrderOfChecks :
    (fresh8.withFetchWord 8 0x0D).pending = .command ⟨0x0D#8, 0#32, 0#32⟩ :: [] ∧
    (decode ⟨0x0D#8, 0#32, 0#32⟩).isOk = false ∧
    decode ⟨0x0B#8, 0#32, 0#32⟩ = .ok (.fxmul 0#32) ∧ readsFx (.fxmul 0#32) = true ∧ fresh8.fxWritten = false ∧
    decode ⟨0x01#8, 0#32, 0#32⟩ = .ok (.lzc 0#32) ∧ resultOpen fresh8.cfg (.lzc 0#32) = true ∧
    fresh8.fxRefusals = 0 ∧ { fresh8 with fxRefusals := 2 }.fxRefusals ≠ 0 := by decide

theorem witness_FbWordAfterReset :
    (fresh8.issue .reset).pending = .reset :: [] ∧ (fresh8.issue .reset).fxRefusals = 0 := by decide

theorem witness_ReadsOfUnwrittenFxWordAreRecorded : State.reset.fxWritten = false := by decide

theorem witness_EffectOfReset :
    ((unit8 9#32).issue .reset).pending = .reset :: [] ∧ ((unit8 9#32).issue .reset).fxRefusals = 0 ∧
    ({ unit8 9#32 with fxRefusals := 1 }.issue .reset).pending = .reset :: [] := by decide

/-- P6: once a read of the unwritten register is counted, neither FXLD nor a reset brings a defined state back, and a
reserved control byte is refused with the count. -/
theorem test_refusal_kept :
    resultOf (step ({ fresh8 with fxRefusals := 2 }.withFetchWord 8 0x04)) = some (Config.undefinedResult 2) ∧
    fbOf (step ({ fresh8 with fxRefusals := 2 }.issue .reset)) = some (Config.undefinedFb 2) ∧
    refusalOf (step ({ fresh8 with fxRefusals := 2 }.withFetchWord 8 0x0D)) = some (.reservedEncoding 2) :=
  ⟨rfl, rfl, rfl⟩

/-- The two cases of the statements on a step: a run without a refusal, and a refused one. -/
theorem witness_refusedRun :
    fresh8.fxRefusals = 0 ∧ { fresh8 with fxRefusals := 2 }.fxRefusals ≠ 0 ∧ State.reset.fxRefusals = 0 := by decide

/-- Both ends of the word's index range. -/
theorem witness_MaskTestsIsolateTheHighestBit : 1#32 ≠ 0#32 ∧ 0x80000000#32 ≠ 0#32 := by decide

theorem witness_LowIndexIsTheLowestSetBit :
    IsLsbIndex 1#32 0 ∧ IsLsbIndex 0x80000000#32 31 := by unfold IsLsbIndex; decide

theorem witness_MsbIndexIsTheLogarithm :
    1#32 ≠ 0#32 ∧ lzcIndex .msb 1#32 = 0 ∧ 0xFFFFFFFF#32 ≠ 0#32 ∧ lzcIndex .msb 0xFFFFFFFF#32 = 31 := by decide

theorem witness_LsbVariantIsTheLowestSetBit : 0x80000001#32 ≠ 0#32 ∧ 0x80000000#32 ≠ 0#32 := by decide

theorem witness_LzcAnswersTheIndex :
    0x80000001#32 ≠ 0#32 ∧ fresh8.cfg.lzcZero = .any ∧
    (0x7FFFFFFF#32).toNat < 2 ^ lzcIndex .msb 0x80000000#32 := by decide

theorem witness_LiteralDatapathOnZero :
    { fresh8 with cfg := { config8 with lzcZero := .datapath } }.cfg.lzcZero = .datapath := by decide

theorem witness_ComposeClosedForm :
    IsMsbIndex 1#32 0 ∧ IsMsbIndex 0x00FFFFFF#32 23 ∧ (0x00FFFFFF#32).toNat ≤ 2 ^ 24 - 1 :=
  ⟨(isMsbIndex_iff _ _).2 (by decide), (isMsbIndex_iff _ _).2 (by decide), by decide⟩

theorem witness_WideMantissaIsUnspecified :
    0x01000000#32 ≠ 0#32 ∧ 23 < lzcIndex fresh8.cfg.lzcVariant 0x01000000#32 ∧
    23 < lzcIndex fresh8.cfg.lzcVariant 0xFFFFFFFF#32 := by decide

theorem witness_ExponentFieldWraps :
    1#32 ≠ 0#32 ∧ compose .msb false 149#32 1#32 = some 0x75000000#32 ∧
    (0xFFFFFF95#32).extractLsb' 0 8 = (149#32).extractLsb' 0 8 := by decide

/-- The exponent fields at the ends of the five ranges: 1, 254, 0, 255, with and without a fraction. -/
theorem witness_FloatViewOfAWord :
    ((0x00800000#32).extractLsb' 23 8).toNat = 1 ∧ ((0x7F7FFFFF#32).extractLsb' 23 8).toNat = 254 ∧
    ((0x80000000#32).extractLsb' 23 8).toNat = 0 ∧ ((0x80000000#32).extractLsb' 0 23).toNat = 0 ∧
    ((0x00000001#32).extractLsb' 23 8).toNat = 0 ∧ ((0x00000001#32).extractLsb' 0 23).toNat = 1 ∧
    ((0xFF800000#32).extractLsb' 23 8).toNat = 255 ∧ ((0xFF800000#32).extractLsb' 0 23).toNat = 0 ∧
    ((0x7FC00000#32).extractLsb' 23 8).toNat = 255 ∧ ((0x7FC00000#32).extractLsb' 0 23).toNat ≠ 0 := by decide

theorem witness_FbsetStoresTheComposedWord :
    compose fresh8.cfg.lzcVariant true 0#32 0x00FFFFFF#32 = some 0xCB7FFFFF#32 ∧
    (0x00FFFFFF#32).toNat < 2 ^ 24 ∧ compose fresh8.cfg.lzcVariant true 0#32 0x01000000#32 = none := by decide

theorem witness_FbsetStoresTheComposedWord_next :
    ∃ t, exec (.fbset true 0#32 0x01000000#32) fresh8 = .next t := ⟨_, rfl⟩

/-- The ends of the normal range: `h - s(bpo) + 127` is 1 and 254. -/
theorem witness_ComposedFloatReadsBackExactly :
    IsMsbIndex 1#32 0 ∧ (1#32).toNat ≤ 2 ^ 24 - 1 ∧
    ((0 : Nat) : Int) - (126#32).toInt + 127 = 1 ∧ ((0 : Nat) : Int) - (0xFFFFFF81#32).toInt + 127 = 254 :=
  ⟨(isMsbIndex_iff _ _).2 (by decide), by decide, by decide, by decide⟩

theorem witness_LsbVariantComposesPowersOfTwo :
    IsLsbIndex 0x00800000#32 23 ∧ IsLsbIndex 0x01000000#32 24 ∧ (0x00FFFFFF#32).toNat < 2 ^ 24 := by
  unfold IsLsbIndex; decide

/-- An integer that fits the word and the first one that does not. -/
theorem witness_ConstructionRoundsToNearest :
    FitsWord (roundScaled .away 1 30) ∧ ¬ FitsWord (roundScaled .away 1 31) := by unfold FitsWord; decide

/-- The pattern 8388607.5 stands for a real, and 8388608.0 for one that does not fit at `SHIFT = 8`. -/
theorem witness_FxldLoadsTheRounding :
    (∃ q, (floatValue 0x4AFFFFFF#32).toRat? = some q) ∧ (∃ q, (floatValue 0x4B000000#32).toRat? = some q) ∧
    fxFromPattern config8 0x4AFFFFFF#32 = some 0x7FFFFF80#32 ∧ fxFromPattern config8 0x4B000000#32 = none :=
  ⟨⟨_, rfl⟩, ⟨_, rfl⟩, by decide, by decide⟩

theorem witness_FxldLoadsTheRounding_open :
    floatValue 0x7F800000#32 = .infinity false ∧ floatValue 0x7FC00000#32 = .nan ∧
    FloatValue.nan.toRat? = none ∧ (FloatValue.infinity false).toRat? = none ∧
    (0x007FFFFF#32).extractLsb' 23 8 = 0#8 ∧ (0x80000000#32).extractLsb' 23 8 = 0#8 :=
  ⟨by decide, by decide, rfl, rfl, by decide, by decide⟩

/-- The tie 5/2 rounds away from zero to 3. -/
theorem witness_RoundingIsUnique : IsRounding .away (5 / 2) 3 := by
  constructor <;> norm_num [abs_of_pos]

theorem witness_FxgetAnswersFxWord : fresh8.fxWritten = false ∧ (unit8 5#32).fxWritten = true := by decide

/-- The hypotheses of the statements on FXADDI, FXSUBI, FXADD, FXSUB, FXMULI and FXMUL, and of
`ArithmeticIsModulo32Bits`. -/
theorem witness_ArithmeticHypotheses :
    fresh8.fxWritten = false ∧ (unit8 5#32).fxWritten = true ∧ (unit8 5#32).cfg.mulIntermediate = .w32 ∧
    { unit8 5#32 with cfg := { config8 with mulIntermediate := .w64 } }.cfg.mulIntermediate = .w64 := by decide

/-- The greatest product that fits, `2^31 - 1`, and a configuration with `SHIFT = 8`. -/
theorem witness_ProductWidthsAgreeWithoutOverflow :
    FitsWord ((0x7FFFFFFF#32).toInt * (1#32).toInt) ∧ config8.shift = 8 := by unfold FitsWord; decide

theorem witness_ArithmeticChains :
    decode ⟨0x06#8, 3#32, 0#32⟩ = .ok (.fxaddi 3#32) ∧ decode ⟨0x0A#8, 2#32, 0#32⟩ = .ok (.fxmuli 2#32) ∧
    readsFx (.fxaddi 3#32) = true ∧ writesFx (.fxaddi 3#32) = true ∧ (unit8 0x200#32).fxWritten = true ∧
    (unit8 0x200#32).fxRefusals = 0 := by decide

theorem witness_ArithmeticChains_step :
    ∃ t, step { unit8 0x200#32 with
      pending := [.command ⟨0x06#8, 3#32, 0#32⟩, .command ⟨0x0A#8, 2#32, 0#32⟩] } = .next t := ⟨_, rfl⟩

/-- Each command answers, and its mathematical result fits: 2.0 with `k = 3`, at `SHIFT = 8`. -/
theorem witness_FixedPointIsExactWithoutOverflow :
    (∃ t, exec (.fxaddi 3#32) (unit8 0x200#32) = .next t) ∧ (∃ t, exec (.fxsubi 3#32) (unit8 0x200#32) = .next t) ∧
    (∃ t, exec (.fxadd 3#32) (unit8 0x200#32) = .next t) ∧ (∃ t, exec (.fxsub 3#32) (unit8 0x200#32) = .next t) ∧
    (∃ t, exec (.fxmuli 3#32) (unit8 0x200#32) = .next t) ∧ (∃ t, exec (.fxmul 3#32) (unit8 0x200#32) = .next t) ∧
    FitsWord ((0x200#32).toInt + (3#32).toInt * 2 ^ 8) ∧ FitsWord ((0x200#32).toInt - (3#32).toInt * 2 ^ 8) ∧
    FitsWord ((0x200#32).toInt + (3#32).toInt) ∧ FitsWord ((0x200#32).toInt - (3#32).toInt) ∧
    FitsWord ((0x200#32).toInt * (3#32).toInt) :=
  ⟨⟨_, rfl⟩, ⟨_, rfl⟩, ⟨_, rfl⟩, ⟨_, rfl⟩, ⟨_, rfl⟩, ⟨_, rfl⟩, by unfold FitsWord; decide⟩

theorem witness_FrameOfEveryCommand :
    (∃ t, exec (.lzc 0#32) fresh8 = .next t) ∧ writesFb (.lzc 0#32) = false ∧ writesFx (.lzc 0#32) = false ∧
    (∃ t, exec (.fxld 0#32) fresh8 = .next t) ∧ writesFx (.fxld 0#32) = true := ⟨⟨_, rfl⟩, rfl, rfl, ⟨_, rfl⟩, rfl⟩

/-- Two instances that agree on the constants and on `FX.word` and differ in all else. -/
theorem witness_NoHiddenState :
    let other : State := { unit8 7#32 with fb := 1#32, result := some 9#32, draws := 4 }
    (unit8 7#32).cfg = other.cfg ∧ (unit8 7#32).fx = other.fx ∧ (unit8 7#32).fxWritten = true ∧
    other.fxWritten = true ∧
    resultOpen (unit8 7#32).cfg .fxget = false ∧ ∃ t, exec .fxget (unit8 7#32) = .next t :=
  ⟨rfl, rfl, rfl, rfl, rfl, _, rfl⟩

theorem witness_GroupsInterleaveFreely :
    readsFx (.fbset true 0#32 1#32) = false ∧ writesFx (.fbset true 0#32 1#32) = false ∧
    readsFx (.fxaddi 1#32) = true ∧ resultOpen config8 (.fbset true 0#32 1#32) = false ∧
    resultOpen config8 (.fxaddi 1#32) = false ∧ (unit8 0#32).fxWritten = true ∧
    ∃ t u, exec (.fbset true 0#32 1#32) (unit8 0#32) = .next t ∧ exec (.fxaddi 1#32) t = .next u :=
  ⟨rfl, rfl, rfl, by decide, rfl, rfl, _, _, rfl, rfl⟩

theorem witness_ConstantsNeverChange :
    (∃ t, step (fresh8.issue .reset) = .next t) ∧ fresh8.cfg.Normative := ⟨⟨_, rfl⟩, rfl, rfl, rfl⟩

/-- A stream that meets the boot requirement: P1, commands 1 and 2. -/
theorem witness_SafeInstancesStaySafe :
    { fresh8 with pending := [.command ⟨0x04#8, 0x40000000#32, 0#32⟩, .command ⟨0x06#8, 3#32, 0#32⟩] }.Safe := by
  unfold State.Safe; decide

/-- Streams that do not meet it: P6 groups b and e; and one that a reset makes unsafe. -/
theorem witness_SafeStreamsAreExactlyThoseThatRun :
    ¬ { fresh8 with pending := [.command ⟨0x0B#8, 0x100#32, 0#32⟩] }.Safe ∧
    ¬ { fresh8 with pending := [.command ⟨0xFF#8, 0#32, 0#32⟩] }.Safe ∧
    ¬ { unit8 1#32 with pending := [.reset, .command ⟨0x05#8, 0#32, 0#32⟩] }.Safe := by
  unfold State.Safe; decide

theorem witness_InstancesShareNothing :
    ∃ sys' : System, System.stepAt [unit8 1#32, (unit8 2#32).issue .reset] ⟨1, by decide⟩ = .next sys' := ⟨_, rfl⟩

theorem witness_ZeroMantissaGivesPositiveZero : resultOf (exec (.fbset true 5#32 0#32) fresh8) = some 0#32 := by decide

end Sys2Proof.Tests
end

