-- ==== Sys2Proof/Proofs/Encoding.lean ====
section
/-! The reserved and the defined control bytes (30_encoding R34, R37). -/

namespace Sys2Proof

open Sys2Proof.Machine

/-! ### The opcode map -/

/-- With `zero` clear, a command decodes by its fields `s` and `op` and its ports (30_encoding R33 to R35). -/
theorem decode_ctlOf (s : Bool) (op : BitVec 4) (a b : Word) :
    decode ⟨ctlOf 0#3 s op, a, b⟩ = decodeOp s op a b := by
  have fields : ∀ (s : Bool) (op : BitVec 4), (ctlOf 0#3 s op).extractLsb' 5 3 = 0#3 ∧
      (ctlOf 0#3 s op).getLsbD 4 = s ∧ (ctlOf 0#3 s op).extractLsb' 0 4 = op := by decide
  obtain ⟨hzero, hs, hop⟩ := fields s op
  simp only [decode, Command.zeroField, Command.sField, Command.opField, hzero, hs, hop, if_true]

/-- Settles O1: each control byte of the map is `ctlOf` of its fields, and `decodeOp` is the map. -/
theorem controlBytesOfTheOpcodeMap : Obligations.ControlBytesOfTheOpcodeMap := by
  intro a b
  exact ⟨decode_ctlOf false 0x0#4 a b, decode_ctlOf false 0x1#4 a b, decode_ctlOf false 0x2#4 a b,
    decode_ctlOf true 0x2#4 a b, decode_ctlOf false 0x3#4 a b, decode_ctlOf false 0x4#4 a b,
    decode_ctlOf false 0x5#4 a b, decode_ctlOf false 0x6#4 a b, decode_ctlOf false 0x7#4 a b,
    decode_ctlOf false 0x8#4 a b, decode_ctlOf false 0x9#4 a b, decode_ctlOf false 0xA#4 a b,
    decode_ctlOf false 0xB#4 a b, decode_ctlOf false 0xC#4 a b, decode_ctlOf false 0xD#4 a b,
    decode_ctlOf false 0xE#4 a b, decode_ctlOf false 0xF#4 a b⟩

/-! ### The three cases of R37 -/

theorem Command.zeroFieldOk_eq_false (c : Command) :
    c.zeroFieldOk = false ↔ c.ctl.extractLsb' 5 3 ≠ 0b000#3 := by
  simp [Command.zeroFieldOk]

theorem Command.opOk_eq_false (c : Command) :
    c.opOk = false ↔ c.ctl.extractLsb' 0 4 ∈ [0xC#4, 0xD#4, 0xE#4, 0xF#4] := by
  have codes : ∀ op : BitVec 4, decide (op.toNat < 12) = false ↔ op ∈ [0xC#4, 0xD#4, 0xE#4, 0xF#4] := by decide
  exact codes _

theorem Command.signOk_eq_false (c : Command) :
    c.signOk = false ↔ c.ctl.getLsbD 4 = true ∧ c.ctl.extractLsb' 0 4 ≠ 0x2#4 := by
  simp [Command.signOk]

/-- A command is ill formed exactly in the cases (a), (b), (c) of 30_encoding R37. -/
theorem Command.wellFormed_eq_false (c : Command) :
    c.wellFormed = false ↔
      c.ctl.extractLsb' 5 3 ≠ 0b000#3 ∨
      c.ctl.extractLsb' 0 4 ∈ [0xC#4, 0xD#4, 0xE#4, 0xF#4] ∨
      (c.ctl.getLsbD 4 = true ∧ c.ctl.extractLsb' 0 4 ≠ 0x2#4) := by
  rw [← c.zeroFieldOk_eq_false, ← c.opOk_eq_false, ← c.signOk_eq_false, Command.wellFormed,
    Bool.and_eq_false_iff, Bool.and_eq_false_iff, or_assoc]

/-! ### The count of the control bytes -/

/-- Whether a command is reserved depends on its control byte alone (30_encoding R37). -/
theorem decode_isOk_eq_wellFormed_ctl (x : Byte) (a b : Word) :
    (decode ⟨x, a, b⟩).isOk = Command.wellFormed ⟨x, 0#32, 0#32⟩ :=
  decode_isOk ⟨x, a, b⟩

/-- The defined control bytes: the twelve codes with `s = 0`, and 0x12 (30_encoding R37). -/
theorem definedControlBytes (a b : Word) :
    ((List.range 256).filter fun n => (decode ⟨BitVec.ofNat 8 n, a, b⟩).isOk) = List.range 12 ++ [0x12] := by
  simp only [decode_isOk_eq_wellFormed_ctl]
  decide

theorem length_definedControlBytes (a b : Word) :
    ((List.range 256).filter fun n => (decode ⟨BitVec.ofNat 8 n, a, b⟩).isOk).length = 13 := by
  rw [definedControlBytes]; rfl

theorem length_reservedControlBytes (a b : Word) :
    ((List.range 256).filter fun n => !(decode ⟨BitVec.ofNat 8 n, a, b⟩).isOk).length = 243 := by
  have hsum := (List.range 256).length_eq_length_filter_add fun n => (decode ⟨BitVec.ofNat 8 n, a, b⟩).isOk
  rw [List.length_range, length_definedControlBytes] at hsum
  omega

/-! ### The step of a reserved command -/

/-- A reserved command is refused whatever the state, with the count of the refusals before it (30_encoding R37,
60_exceptions R86). -/
theorem step_reserved {s : State} {c : Command} {rest : List Request} (hp : s.pending = .command c :: rest)
    (hc : (decode c).isOk = false) : step s = .refused (.reservedEncoding s.fxRefusals) := by
  cases hd : decode c with
  | ok i => rw [hd] at hc; cases hc
  | error e => exact (step_cons hp).trans (runCommand_error _ hd)

/-- Settles O2: the decoder accepts the well-formed commands, of which 13 control bytes are, and a step decodes
before it runs. -/
theorem reservedControlBytesAreRefused : Obligations.ReservedControlBytesAreRefused := by
  refine ⟨fun c => ?cases, fun a b => ?count, fun s c rest hp hc => ?refused⟩
  case cases => rw [decode_isOk, Command.wellFormed_eq_false]
  case count => exact ⟨length_definedControlBytes a b, length_reservedControlBytes a b⟩
  case refused => exact ⟨_, step_reserved hp hc⟩

end Sys2Proof
end

