-- ==== Sys2Proof/Proofs/Popcount.lean ====
section
/-! The five passes count the set bits (40_popcount R42, R43), and POPCNT answers the count (R44). -/

namespace Sys2Proof.Machine

open scoped Finset

/-! ### The sum of the lanes of a number -/

/-- The sum of the `n` lowest lanes of `t`, each `w` bits wide. -/
def laneSum (w n t : Nat) : Nat := ∑ i ∈ Finset.range n, t / 2 ^ (w * i) % 2 ^ w

@[simp] theorem laneSum_zero (w t : Nat) : laneSum w 0 t = 0 := rfl

/-- The lowest lane apart from the lanes above it. -/
theorem laneSum_succ (w n t : Nat) : laneSum w (n + 1) t = laneSum w n (t / 2 ^ w) + t % 2 ^ w := by
  simp [laneSum, Finset.sum_range_succ', Nat.div_div_eq_div_mul, mul_add, pow_add, mul_comm (2 ^ w)]

/-- A number of one lane is its own lane sum. -/
theorem laneSum_one_of_lt {w t : Nat} (ht : t < 2 ^ w) : laneSum w 1 t = t := by
  rw [laneSum_succ, laneSum_zero, Nat.mod_eq_of_lt ht, Nat.zero_add]

/-! ### One pass adds neighbouring lanes -/

/-- The mask of the even ones of `2 * n` lanes, each `w` bits wide. -/
def evenLanes (w : Nat) : Nat → Nat
  | 0 => 0
  | n + 1 => evenLanes w n * 2 ^ (2 * w) + (2 ^ w - 1)

/-- The numbers behind one pass: the even lanes and the odd lanes of `t`, added (40_popcount R42). -/
def pairSum (w n t : Nat) : Nat := (t &&& evenLanes w n) + (t / 2 ^ w &&& evenLanes w n)

theorem lane_lt_pair (w : Nat) : 2 ^ w - 1 < 2 ^ (2 * w) := by
  have hle : 2 ^ w ≤ 2 ^ (2 * w) := Nat.pow_le_pow_right (by decide) (by omega)
  have hpos : 0 < 2 ^ w := by positivity
  omega

/-- The mask keeps the lower lane of the lowest pair. -/
theorem and_evenLanes_succ_mod (w n t : Nat) : (t &&& evenLanes w (n + 1)) % 2 ^ (2 * w) = t % 2 ^ w := by
  have hdvd : 2 ^ w ∣ 2 ^ (2 * w) := Nat.pow_dvd_pow 2 (by omega)
  rw [evenLanes, Nat.and_mod_two_pow, Nat.mul_add_mod_self_right, Nat.mod_eq_of_lt (lane_lt_pair w),
    Nat.and_two_pow_sub_one_eq_mod, Nat.mod_mod_of_dvd _ hdvd]

/-- Above the lowest pair the mask is the mask of the pairs left. -/
theorem and_evenLanes_succ_div (w n t : Nat) :
    (t &&& evenLanes w (n + 1)) / 2 ^ (2 * w) = t / 2 ^ (2 * w) &&& evenLanes w n := by
  rw [evenLanes, Nat.and_div_two_pow, mul_comm (evenLanes w n), Nat.mul_add_div (by positivity),
    Nat.div_eq_of_lt (lane_lt_pair w), Nat.add_zero]

/-- The sum of two lanes fits the double lane, so no carry leaves it. -/
theorem lane_add_lane_lt (w t u : Nat) : t % 2 ^ w + u % 2 ^ w < 2 ^ (2 * w) := by
  have hpos : 0 < 2 ^ w := by positivity
  have ht := Nat.mod_lt t hpos
  have hu := Nat.mod_lt u hpos
  rw [two_mul, pow_add]
  nlinarith

/-- A pass adds the two lanes of the lowest pair and passes over the pairs above it. -/
theorem pairSum_succ (w n t : Nat) :
    pairSum w (n + 1) t = 2 ^ (2 * w) * pairSum w n (t / 2 ^ (2 * w)) + (t % 2 ^ w + t / 2 ^ w % 2 ^ w) := by
  have heven := Nat.div_add_mod (t &&& evenLanes w (n + 1)) (2 ^ (2 * w))
  have hodd := Nat.div_add_mod (t / 2 ^ w &&& evenLanes w (n + 1)) (2 ^ (2 * w))
  rw [and_evenLanes_succ_div, and_evenLanes_succ_mod] at heven hodd
  rw [pairSum, pairSum, ← heven, ← hodd, Nat.div_right_comm t]
  ring

/-- A pass keeps the lane sum and doubles the width of the lanes. -/
theorem laneSum_pairSum (w n t : Nat) : laneSum (2 * w) n (pairSum w n t) = laneSum w (2 * n) t := by
  induction n generalizing t with
  | zero => rfl
  | succ n ih =>
    have hfit := lane_add_lane_lt w t (t / 2 ^ w)
    have hdiv : pairSum w (n + 1) t / 2 ^ (2 * w) = pairSum w n (t / 2 ^ (2 * w)) := by
      rw [pairSum_succ, Nat.mul_add_div (by positivity), Nat.div_eq_of_lt hfit, Nat.add_zero]
    have hmod : pairSum w (n + 1) t % 2 ^ (2 * w) = t % 2 ^ w + t / 2 ^ w % 2 ^ w := by
      rw [pairSum_succ, Nat.mul_add_mod_self_left, Nat.mod_eq_of_lt hfit]
    calc laneSum (2 * w) (n + 1) (pairSum w (n + 1) t)
        = laneSum w (2 * n) (t / 2 ^ (2 * w)) + (t % 2 ^ w + t / 2 ^ w % 2 ^ w) := by
          rw [laneSum_succ, hdiv, hmod, ih]
      _ = laneSum w (2 * (n + 1)) t := by
          rw [mul_add_one, laneSum_succ, laneSum_succ, Nat.div_div_eq_div_mul, ← pow_add, ← two_mul]
          omega

/-! ### The passes of the model -/

/-- Under a mask without bit 31 the addition of a pass does not wrap. -/
theorem toNat_swarPass {mask : Word} (hmask : mask.toNat < 2 ^ 31) (sh : Nat) (t : Word) :
    (swarPass mask sh t).toNat = (t.toNat &&& mask.toNat) + (t.toNat / 2 ^ sh &&& mask.toNat) := by
  have heven : t.toNat &&& mask.toNat ≤ mask.toNat := Nat.and_le_right
  have hodd : t.toNat / 2 ^ sh &&& mask.toNat ≤ mask.toNat := Nat.and_le_right
  simp only [swarPass, shiftRightLogical, BitVec.toNat_add, BitVec.toNat_and, BitVec.toNat_ushiftRight,
    Nat.shiftRight_eq_div_pow]
  exact Nat.mod_eq_of_lt (by omega)

/-- A pass with the mask of the even lanes keeps the lane sum (40_popcount R43). -/
theorem laneSum_swarPass {mask : Word} {w n : Nat} (hmask : mask.toNat = evenLanes w n)
    (hlt : mask.toNat < 2 ^ 31) (t : Word) :
    laneSum (2 * w) n (swarPass mask w t).toNat = laneSum w (2 * n) t.toNat := by
  rw [toNat_swarPass hlt, hmask, ← laneSum_pairSum, pairSum]

/-- After the five passes the one lane of 32 bits holds the sum of the 32 lanes of one bit (40_popcount R43). -/
theorem toNat_swarSum (x : Word) : (swarSum x).toNat = laneSum 1 32 x.toNat := by
  rw [← laneSum_one_of_lt (swarSum x).isLt, swarSum,
    laneSum_swarPass (w := 16) (n := 1) (by decide) (by decide),
    laneSum_swarPass (w := 8) (n := 2) (by decide) (by decide),
    laneSum_swarPass (w := 4) (n := 4) (by decide) (by decide),
    laneSum_swarPass (w := 2) (n := 8) (by decide) (by decide),
    laneSum_swarPass (w := 1) (n := 16) (by decide) (by decide)]

/-! ### The count of the set bits -/

theorem setBitCount_le (x : Word) : setBitCount x ≤ 32 :=
  (List.length_filter_le _ _).trans_eq List.length_range

/-- The lanes of one bit are the bits. -/
theorem setBitCount_eq_laneSum (x : Word) : setBitCount x = laneSum 1 32 x.toNat := by
  have hbit (i : Nat) : (if x.getLsbD i then 1 else 0) = x.toNat / 2 ^ (1 * i) % 2 ^ 1 := by
    rw [one_mul, pow_one, BitVec.getLsbD, Nat.testBit_eq_decide_div_mod_eq]
    rcases Nat.mod_two_eq_zero_or_one (x.toNat / 2 ^ i) with h | h <;> simp [h]
  calc setBitCount x
      = #{i ∈ Finset.range 32 | x.getLsbD i} :=
        congrArg List.length (List.filter_congr fun i _ => Bool.decide_eq_true.symm)
    _ = ∑ i ∈ Finset.range 32, if x.getLsbD i then 1 else 0 := Finset.card_filter _ _
    _ = laneSum 1 32 x.toNat := Finset.sum_congr rfl fun i _ => hbit i

/-- The word after the five passes is the count (40_popcount R43). -/
theorem toNat_swarSum_eq_setBitCount (x : Word) : (swarSum x).toNat = setBitCount x := by
  rw [toNat_swarSum, setBitCount_eq_laneSum]

/-- The low eight bits hold the whole count (40_popcount R42, R43). -/
theorem popcount32_eq_setBitCount (x : Word) : popcount32 x = setBitCount x := by
  have hle := setBitCount_le x
  rw [popcount32, BitVec.extractLsb'_toNat, toNat_swarSum_eq_setBitCount, Nat.shiftRight_zero,
    Nat.mod_eq_of_lt (by omega)]

/-- Settles O15: each pass keeps the sum of the lanes and doubles their width, from the bits to the word. -/
theorem fivePassesCountTheSetBits : Obligations.FivePassesCountTheSetBits := fun x =>
  ⟨popcount32_eq_setBitCount x, toNat_swarSum_eq_setBitCount x,
    (toNat_swarSum_eq_setBitCount x).trans_le (setBitCount_le x)⟩

/-! ### The corner cases of R44 -/

theorem setBitCount_eq_zero_iff (a : Word) : setBitCount a = 0 ↔ a = 0#32 := by
  rw [setBitCount, List.length_eq_zero_iff, List.filter_eq_nil_iff, BitVec.eq_of_getLsbD_eq_iff]
  simp

theorem setBitCount_not (a : Word) : setBitCount (~~~a) = 32 - setBitCount a := by
  have hsum := (List.range 32).length_eq_length_filter_add fun i => a.getLsbD i
  have hcompl : setBitCount (~~~a) = ((List.range 32).filter fun i => !a.getLsbD i).length :=
    congrArg List.length (List.filter_congr fun i hi => by simp [List.mem_range.1 hi])
  rw [List.length_range, ← hcompl] at hsum
  exact (Nat.sub_eq_of_eq_add' hsum).symm

/-- Every bit of a word is set when no bit of its complement is. -/
theorem setBitCount_eq_32_iff (a : Word) : setBitCount a = 32 ↔ a = 0xFFFFFFFF#32 := by
  have hle := setBitCount_le a
  have hnot := setBitCount_not a
  calc setBitCount a = 32
      ↔ setBitCount (~~~a) = 0 := by omega
    _ ↔ ~~~a = 0#32 := setBitCount_eq_zero_iff _
    _ ↔ a = 0xFFFFFFFF#32 := BitVec.not_eq_comm

theorem setBitCount_one_shiftLeft {i : Nat} (hi : i < 32) : setBitCount (1#32 <<< i) = 1 := by
  have hbit : (fun j => (1#32 <<< i).getLsbD j) = (· == i) := by
    funext j
    change (BitVec.twoPow 32 i).getLsbD j = _
    simp [BitVec.getLsbD_twoPow, hi, eq_comm, Bool.beq_eq_decide_eq]
  rw [setBitCount, hbit, ← List.countP_eq_length_filter]
  exact List.count_eq_one_of_mem List.nodup_range (List.mem_range.2 hi)

/-- The answer of POPCNT has bits 31:6 zero (40_popcount R44). -/
theorem extractLsb'_ofNat_setBitCount (a : Word) :
    (BitVec.ofNat 32 (setBitCount a)).extractLsb' 6 26 = 0#26 := by
  have hle := setBitCount_le a
  apply BitVec.eq_of_toNat_eq
  rw [BitVec.extractLsb'_toNat, BitVec.toNat_ofNat, Nat.mod_eq_of_lt (by omega), Nat.shiftRight_eq_div_pow,
    Nat.div_eq_of_lt (by omega)]
  rfl

/-- Settles O16: POPCNT answers `popcount32`, which is the count. -/
theorem popcntAnswersTheCount : Obligations.PopcntAnswersTheCount := by
  refine ⟨fun a b => ?decodes, fun s a => ?answers, fun a => ?count, fun i hi => setBitCount_one_shiftLeft hi⟩
  case decodes => exact decode_ctlOf false 0x0#4 a b
  case answers => rw [exec_popcnt, popcount32_eq_setBitCount]; rfl
  case count =>
    exact ⟨extractLsb'_ofNat_setBitCount a, setBitCount_eq_zero_iff a, setBitCount_eq_32_iff a, setBitCount_not a⟩

end Sys2Proof.Machine
end

