-- ==== Sys2Proof/Proofs/LeadingZero.lean ====
section
/-! The two stages of the leading zero unit (41_lzc R46, R47), and the readings of its output (R49, R50). -/

namespace Sys2Proof.Machine

open scoped Finset

/-! ### Words with one set bit -/

theorem getLsbD_one_shiftLeft (n i : Nat) : (1#32 <<< n).getLsbD i = (decide (n < 32) && decide (n = i)) := by
  rw [← BitVec.twoPow_eq, BitVec.getLsbD_twoPow]

/-- A word whose set bits are bit `n` alone is that bit isolated. -/
theorem eq_one_shiftLeft_of_unique {x : Word} {n : Nat} (hset : x.getLsbD n = true)
    (honly : ∀ i, x.getLsbD i = true → i = n) : x = 1#32 <<< n := by
  have hn : n < 32 := BitVec.lt_of_getLsbD hset
  refine BitVec.eq_of_getLsbD_eq fun i _ => ?_
  rw [getLsbD_one_shiftLeft, decide_eq_true hn, Bool.true_and]
  rcases eq_or_ne n i with rfl | hne
  · rw [hset, decide_eq_true rfl]
  · rw [decide_eq_false hne]
    exact Bool.eq_false_of_not_eq_true fun hi => hne (honly i hi).symm

theorem isLsbIndex_one_shiftLeft {n : Nat} (hn : n < 32) : IsLsbIndex (1#32 <<< n) n := by
  refine ⟨?_, fun i hi => ?_⟩
  · rw [getLsbD_one_shiftLeft, decide_eq_true hn, decide_eq_true rfl, Bool.true_and]
  · rw [getLsbD_one_shiftLeft, decide_eq_false hi.ne', Bool.and_false]

/-- A word whose highest set bit is its lowest has no other. -/
theorem IsMsbIndex.eq_one_shiftLeft {x : Word} {n : Nat} (hmsb : IsMsbIndex x n) (hlsb : IsLsbIndex x n) :
    x = 1#32 <<< n := by
  refine eq_one_shiftLeft_of_unique hmsb.1 fun i hi => ?_
  rcases Nat.lt_trichotomy i n with hlt | heq | hgt
  · exact absurd hi (by simp [hlsb.2 i hlt])
  · exact heq
  · exact absurd hi (by simp [hmsb.2 i hgt])

/-! ### Stage 1: the five mask tests -/

/-- The highest set bit of `w` is bit `h`, and every set bit lies in the group of `k` positions that holds `h`, where
the groups are aligned (41_lzc R46: what the tests narrow down). -/
def OneGroup (k : Nat) (w : Word) (h : Nat) : Prop :=
  IsMsbIndex w h ∧ ∀ i, w.getLsbD i = true → i / k = h / k

/-- The whole word is one group. -/
theorem oneGroup_32 {x : Word} {h : Nat} (hh : IsMsbIndex x h) : OneGroup 32 x h := by
  refine ⟨hh, fun i hi => ?_⟩
  rw [Nat.div_eq_of_lt (BitVec.lt_of_getLsbD hi), Nat.div_eq_of_lt hh.lt]

/-- A group of one position is a bit isolated. -/
theorem OneGroup.eq_one_shiftLeft {w : Word} {h : Nat} (hw : OneGroup 1 w h) : w = 1#32 <<< h := by
  obtain ⟨hmsb, hgroup⟩ := hw
  exact eq_one_shiftLeft_of_unique hmsb.1 fun i hi => by simpa using hgroup i hi

/-- The mask has set the upper half of every group of `2 * k` positions. -/
def IsUpperHalves (k : Nat) (mask : Word) : Prop := ∀ i < 32, mask.getLsbD i = decide (i / k % 2 = 1)

/-- A mask test keeps, of a word within one group, the half that holds the highest set bit. -/
theorem getLsbD_keepIfAny {k : Nat} {mask w : Word} {h : Nat} (hmask : IsUpperHalves k mask)
    (hw : OneGroup (2 * k) w h) (i : Nat) :
    (keepIfAny mask w).getLsbD i = true ↔ w.getLsbD i = true ∧ i / k = h / k := by
  obtain ⟨⟨hset, habove⟩, hgroup⟩ := hw
  have hhalves (i : Nat) (hi : w.getLsbD i = true) : i / k / 2 = h / k / 2 ∧ i / k ≤ h / k := by
    have hle : i ≤ h := not_lt.1 fun hlt => by simp [habove i hlt] at hi
    have hgi := hgroup i hi
    rw [mul_comm, ← Nat.div_div_eq_div_mul, ← Nat.div_div_eq_div_mul] at hgi
    exact ⟨hgi, Nat.div_le_div_right hle⟩
  rcases Nat.mod_two_eq_zero_or_one (h / k) with heven | hodd
  case inl =>
    have hnone : w &&& mask = 0#32 := by
      refine BitVec.eq_of_getLsbD_eq fun i hi => ?_
      rw [BitVec.getLsbD_and, hmask i hi, BitVec.getLsbD_zero, Bool.and_eq_false_imp, decide_eq_false_iff_not]
      intro hwi
      obtain ⟨hpair, hle⟩ := hhalves i hwi
      omega
    rw [keepIfAny, if_neg (not_not.2 hnone), iff_self_and]
    intro hwi
    obtain ⟨hpair, hle⟩ := hhalves i hwi
    omega
  case inr =>
    have hany : w &&& mask ≠ 0#32 := by
      intro hnone
      have hbit := congrArg (BitVec.getLsbD · h) hnone
      simp [hset, hmask h (BitVec.lt_of_getLsbD hset), hodd] at hbit
    rw [keepIfAny, if_pos hany, BitVec.getLsbD_and, Bool.and_eq_true, and_congr_right_iff]
    intro hwi
    rw [hmask i (BitVec.lt_of_getLsbD hwi), decide_eq_true_eq]
    obtain ⟨hpair, -⟩ := hhalves i hwi
    omega

/-- A mask test halves the group and leaves the highest set bit in it. -/
theorem OneGroup.keepIfAny {k : Nat} {mask w : Word} {h : Nat} (hmask : IsUpperHalves k mask)
    (hw : OneGroup (2 * k) w h) : OneGroup k (keepIfAny mask w) h := by
  have hbit := getLsbD_keepIfAny hmask hw
  obtain ⟨⟨hset, habove⟩, -⟩ := hw
  refine ⟨⟨(hbit h).2 ⟨hset, rfl⟩, fun i hi => ?_⟩, fun i hi => ((hbit i).1 hi).2⟩
  rw [← Bool.not_eq_true, hbit, habove i hi]
  simp

/-- The five masks have set the upper halves of the groups of 32, 16, 8, 4 and 2 positions (41_lzc R46). -/
theorem isUpperHalves_masks :
    IsUpperHalves 16 0xFFFF0000#32 ∧ IsUpperHalves 8 0xFF00FF00#32 ∧ IsUpperHalves 4 0xF0F0F0F0#32 ∧
    IsUpperHalves 2 0xCCCCCCCC#32 ∧ IsUpperHalves 1 0xAAAAAAAA#32 := by
  unfold IsUpperHalves
  decide

/-- Stage 1 isolates the highest set bit: the tests narrow its group down from the word to one position. -/
theorem reduceMsb_eq {x : Word} {h : Nat} (hh : IsMsbIndex x h) : reduceMsb x = 1#32 <<< h := by
  obtain ⟨m16, m8, m4, m2, m1⟩ := isUpperHalves_masks
  have g16 := (oneGroup_32 hh).keepIfAny m16
  have g8 := g16.keepIfAny m8
  have g4 := g8.keepIfAny m4
  have g2 := g4.keepIfAny m2
  exact (g2.keepIfAny m1).eq_one_shiftLeft

/-- Settles O17: each test keeps the half that holds the highest set bit. -/
theorem maskTestsIsolateTheHighestBit : Obligations.MaskTestsIsolateTheHighestBit := by
  refine ⟨fun x hx => ?_, by decide⟩
  obtain ⟨h, hh⟩ := exists_isMsbIndex hx
  exact ⟨h, hh, reduceMsb_eq hh⟩

/-! ### Stage 2: the lowest set bit -/

/-- A word that is not 0 has an lsb index, the number of its trailing zeros. -/
theorem exists_isLsbIndex {y : Word} (hy : y ≠ 0#32) : ∃ t, IsLsbIndex y t :=
  ⟨y.ctz.toNat, BitVec.getLsbD_true_ctz_of_ne_zero hy, fun _ hi => BitVec.getLsbD_false_of_lt_ctz hi⟩

theorem IsLsbIndex.lt {y : Word} {t : Nat} (ht : IsLsbIndex y t) : t < 32 := BitVec.lt_of_getLsbD ht.1

/-- A word and its negation share the lowest set bit alone: the negation is the complement above it. -/
theorem and_neg_eq {y : Word} {t : Nat} (ht : IsLsbIndex y t) : y &&& -y = 1#32 <<< t := by
  obtain ⟨hset, hbelow⟩ := ht
  have hfirst : ¬ ∃ j < t, y.getLsbD j = true := by
    rintro ⟨j, hj, hyj⟩
    simp [hbelow j hj] at hyj
  refine eq_one_shiftLeft_of_unique (by simp [BitVec.getLsbD_neg, hset, hfirst]) fun i hi => ?_
  rw [BitVec.getLsbD_and, BitVec.getLsbD_neg, Bool.and_eq_true] at hi
  obtain ⟨hyi, hneg⟩ := hi
  rcases Nat.lt_trichotomy i t with hlt | heq | hgt
  · simp [hbelow i hlt] at hyi
  · exact heq
  · have hlater : ∃ j < i, y.getLsbD j = true := ⟨t, hgt, hset⟩
    rw [hyi, decide_eq_true hlater, decide_eq_true (BitVec.lt_of_getLsbD hyi)] at hneg
    exact absurd hneg (by decide)

/-- The word below an isolated bit has that many ones. -/
theorem setBitCount_one_shiftLeft_sub_one {t : Nat} (ht : t < 32) : setBitCount (1#32 <<< t - 1#32) = t := by
  have hnat : (1#32 <<< t - 1#32).toNat = 2 ^ t - 1 := by
    have hone : 1#32 ≤ BitVec.twoPow 32 t := by
      rw [BitVec.le_def, BitVec.toNat_twoPow_of_lt ht]
      exact Nat.one_le_two_pow
    rw [← BitVec.twoPow_eq, BitVec.toNat_sub_of_le hone, BitVec.toNat_twoPow_of_lt ht]
    rfl
  have hbit (i : Nat) : (1#32 <<< t - 1#32).getLsbD i = decide (i < t) := by
    rw [BitVec.getLsbD, hnat, Nat.testBit_two_pow_sub_one]
  calc setBitCount (1#32 <<< t - 1#32)
      = #{i ∈ Finset.range 32 | i < t} := congrArg List.length (List.filter_congr fun i _ => hbit i)
    _ = #(Finset.range t) := by
      congr 1
      ext i
      rw [Finset.mem_filter, Finset.mem_range, Finset.mem_range]
      omega
    _ = t := Finset.card_range t

/-- Stage 2 gives the lsb index. -/
theorem lowIndex_eq {y : Word} {t : Nat} (ht : IsLsbIndex y t) : lowIndex y = t := by
  rw [lowIndex, BitVec.zero_sub, and_neg_eq ht, popcount32_eq_setBitCount, setBitCount_one_shiftLeft_sub_one ht.lt]

/-- Settles O18: `y & -y` is the lowest set bit, and the word below it has its index many ones. -/
theorem lowIndexIsTheLowestSetBit : Obligations.LowIndexIsTheLowestSetBit := by
  refine ⟨fun y hy => ?_, by decide⟩
  obtain ⟨t, ht⟩ := exists_isLsbIndex hy
  have hneg : BitVec.ofInt 32 (-(y.toNat : Int)) = -y := by
    rw [BitVec.ofInt_neg, BitVec.ofInt_natCast, BitVec.ofNat_toNat, BitVec.setWidth_eq]
  exact ⟨t, ht, Nat.le_of_lt_succ ht.lt, hneg ▸ and_neg_eq ht, lowIndex_eq ht⟩

/-! ### The output of the unit -/

/-- Under MSB the output is the msb index (41_lzc R48). -/
theorem lzcIndex_msb {x : Word} {h : Nat} (hh : IsMsbIndex x h) : lzcIndex .msb x = h := by
  rw [lzcIndex, reduceMsb_eq hh, lowIndex_eq (isLsbIndex_one_shiftLeft hh.lt)]

/-- Under LSB the output is the lsb index (41_lzc R50). -/
theorem lzcIndex_lsb {x : Word} {t : Nat} (ht : IsLsbIndex x t) : lzcIndex .lsb x = t := lowIndex_eq ht

/-- The msb index is 31 less the leading zeros (41_lzc R49). -/
theorem clz_eq {x : Word} {h : Nat} (hh : IsMsbIndex x h) : x.clz.toNat = 31 - h := by
  have hclz : x.clz.toNat < 32 := BitVec.clz_lt_iff_ne_zero.2 hh.ne_zero
  have hmsb : IsMsbIndex x (31 - x.clz.toNat) := by
    refine (isMsbIndex_iff _ _).2 ⟨BitVec.two_pow_sub_clz_le_toNat_of_ne_zero (by decide) hh.ne_zero, ?_⟩
    rw [show 31 - x.clz.toNat + 1 = 32 - x.clz.toNat by omega]
    exact BitVec.toNat_lt_two_pow_sub_clz
  have heq := hh.unique hmsb
  omega

theorem IsMsbIndex.eq_31_iff {x : Word} {h : Nat} (hh : IsMsbIndex x h) : h = 31 ↔ x.getLsbD 31 = true := by
  constructor
  · rintro rfl
    exact hh.1
  · intro hset
    exact hh.unique ⟨hset, fun i hi => BitVec.getLsbD_of_ge x i hi⟩

/-- 1 is the one word between 1 and 2. -/
theorem IsMsbIndex.eq_zero_iff {x : Word} {h : Nat} (hh : IsMsbIndex x h) : h = 0 ↔ x = 1#32 := by
  constructor
  · rintro rfl
    obtain ⟨hlo, hhi⟩ := (isMsbIndex_iff _ _).1 hh
    exact BitVec.eq_of_toNat_eq (by rw [BitVec.toNat_ofNat]; omega)
  · rintro rfl
    exact hh.unique ((isMsbIndex_iff _ _).2 (by decide))

/-- Settles O19: under MSB the output is the msb index, which has the properties R49 lists. -/
theorem msbIndexIsTheLogarithm : Obligations.MsbIndexIsTheLogarithm := by
  intro x hx
  obtain ⟨h, hh⟩ := exists_isMsbIndex hx
  obtain ⟨hlo, hhi⟩ := (isMsbIndex_iff x h).1 hh
  rw [lzcIndex_msb hh]
  exact ⟨hlo, hhi, (Nat.log_eq_of_pow_le_of_lt_pow hlo hhi).symm, clz_eq hh, Nat.le_of_lt_succ hh.lt,
    hh.eq_31_iff, hh.eq_zero_iff⟩

/-- The set positions of a word with one set bit are all the same. -/
theorem eq_of_setBitCount_eq_one {x : Word} (hx : setBitCount x = 1) {i j : Nat} (hi : x.getLsbD i = true)
    (hj : x.getLsbD j = true) : i = j := by
  obtain ⟨n, hn⟩ := List.length_eq_one_iff.1 hx
  have honly (i : Nat) (hi : x.getLsbD i = true) : i = n := by
    rw [← List.mem_singleton, ← hn, List.mem_filter, List.mem_range]
    exact ⟨BitVec.lt_of_getLsbD hi, hi⟩
  rw [honly i hi, honly j hj]

/-- The lowest set bit is the highest exactly when there is one set bit (41_lzc R50). -/
theorem lsbIndex_eq_msbIndex_iff {x : Word} {t h : Nat} (ht : IsLsbIndex x t) (hh : IsMsbIndex x h) :
    t = h ↔ setBitCount x = 1 := by
  constructor
  · rintro rfl
    rw [hh.eq_one_shiftLeft ht, setBitCount_one_shiftLeft hh.lt]
  · exact fun hx => eq_of_setBitCount_eq_one hx ht.1 hh.1

/-- Settles O20: the outputs are the lsb index and the msb index, equal on the words with one set bit. -/
theorem lsbVariantIsTheLowestSetBit : Obligations.LsbVariantIsTheLowestSetBit := by
  refine ⟨fun x hx => ?_, by decide⟩
  obtain ⟨t, ht⟩ := exists_isLsbIndex hx
  obtain ⟨h, hh⟩ := exists_isMsbIndex hx
  rw [lzcIndex_msb hh, lzcIndex_lsb ht]
  exact ⟨(lowIndex_eq ht).symm, ht, lsbIndex_eq_msbIndex_iff ht hh⟩

end Sys2Proof.Machine
end

