-- ==== Sys2Proof/Proofs/FloatComposer.lean ====
section
/-! The float composer (42_float_composer): the composed word by its fields (R57, R59), the float view of a word (R60),
and the round trip through both (R63). -/

namespace Sys2Proof.Machine

/-! ### The fields of a word in the single-precision layout -/

@[simp] theorem getLsbD_floatWord (sign : Bool) (e : BitVec 8) (f : BitVec 23) :
    (floatWord sign e f).getLsbD 31 = sign := by
  rw [floatWord, BitVec.getLsbD_append, if_neg (by decide), BitVec.getLsbD_append, if_neg (by decide)]
  simp

@[simp] theorem exponent_floatWord (sign : Bool) (e : BitVec 8) (f : BitVec 23) :
    (floatWord sign e f).extractLsb' 23 8 = e := by
  rw [floatWord, BitVec.extractLsb'_append_eq_of_le (by decide), BitVec.extractLsb'_append_eq_right]

@[simp] theorem fraction_floatWord (sign : Bool) (e : BitVec 8) (f : BitVec 23) :
    (floatWord sign e f).extractLsb' 0 23 = f := by
  rw [floatWord, BitVec.extractLsb'_append_eq_right]

/-- Every word is made of its three fields (10_state R11). -/
theorem floatWord_fields (w : Word) :
    floatWord (w.getLsbD 31) (w.extractLsb' 23 8) (w.extractLsb' 0 23) = w := by
  have hsign : BitVec.ofBool (w.getLsbD 31) = w.extractLsb' 31 1 := by
    refine BitVec.eq_of_getLsbD_eq fun i hi => ?_
    obtain rfl : i = 0 := by omega
    simp
  rw [floatWord, hsign, BitVec.extractLsb'_append_extractLsb'_eq_extractLsb' (by decide),
    BitVec.extractLsb'_append_extractLsb'_eq_extractLsb' (by decide), BitVec.extractLsb'_eq_self]

theorem floatWord_or (s s' : Bool) (e e' : BitVec 8) (f f' : BitVec 23) :
    floatWord s e f ||| floatWord s' e' f' = floatWord (s || s') (e ||| e') (f ||| f') := by
  rw [floatWord, floatWord, BitVec.or_append, BitVec.or_append, BitVec.ofBool_or_ofBool, floatWord]

theorem floatWord_and (s s' : Bool) (e e' : BitVec 8) (f f' : BitVec 23) :
    floatWord s e f &&& floatWord s' e' f' = floatWord (s && s') (e &&& e') (f &&& f') := by
  rw [floatWord, floatWord, BitVec.and_append, BitVec.and_append, BitVec.ofBool_and_ofBool, floatWord]

theorem and_exponentMask (w : Word) : w &&& 0x7F800000#32 = floatWord false (w.extractLsb' 23 8) 0#23 := by
  have hmask : 0x7F800000#32 = floatWord false (BitVec.allOnes 8) 0#23 := by decide
  conv_lhs => rw [← floatWord_fields w, hmask, floatWord_and]
  rw [Bool.and_false, BitVec.and_allOnes, BitVec.and_zero]

theorem and_fractionMask (w : Word) : w &&& 0x007FFFFF#32 = floatWord false 0#8 (w.extractLsb' 0 23) := by
  have hmask : 0x007FFFFF#32 = floatWord false 0#8 (BitVec.allOnes 23) := by decide
  conv_lhs => rw [← floatWord_fields w, hmask, floatWord_and]
  rw [Bool.and_false, BitVec.and_allOnes, BitVec.and_zero]

/-! ### The three parts of the composed word (R55) -/

theorem signBits_eq (sign : Bool) : signBits sign = floatWord sign 0#8 0#23 := by
  cases sign <;> decide

/-- The shift and the mask of R55 step 3 multiply modulo 2^23. -/
theorem mantissaBits_eq (m : Word) (n : Nat) :
    mantissaBits m n = floatWord false 0#8 (BitVec.ofNat 23 (m.toNat * 2 ^ n)) := by
  have hfield : (shiftLeft m n).extractLsb' 0 23 = BitVec.ofNat 23 (m.toNat * 2 ^ n) := by
    apply BitVec.eq_of_toNat_eq
    rw [BitVec.extractLsb'_toNat, shiftLeft, BitVec.toNat_shiftLeft, BitVec.toNat_ofNat, Nat.shiftRight_zero,
      Nat.shiftLeft_eq, Nat.mod_mod_of_dvd _ (pow_dvd_pow 2 (by decide))]
  rw [mantissaBits, and_fractionMask, hfield]

/-- The multiplication and the mask of R55 step 5 place the exponent modulo 256 (R59). -/
theorem exponentBits_eq (e : Int) : exponentBits e = floatWord false (BitVec.ofInt 8 (e + 127)) 0#23 := by
  have hfield : (wrap32 ((e + 127) * 2 ^ 23)).extractLsb' 23 8 = BitVec.ofInt 8 (e + 127) := by
    apply BitVec.eq_of_toNat_eq
    rw [BitVec.extractLsb'_toNat, BitVec.toNat_ofInt, BitVec.toNat_ofInt, Nat.shiftRight_eq_div_pow]
    omega
  rw [exponentBits, and_exponentMask, hfield]

/-- The three parts lie side by side. -/
theorem composedParts_eq (sign : Bool) (m : Word) (n : Nat) (e : Int) :
    signBits sign ||| mantissaBits m n ||| exponentBits e =
      floatWord sign (BitVec.ofInt 8 (e + 127)) (BitVec.ofNat 23 (m.toNat * 2 ^ n)) := by
  rw [signBits_eq, mantissaBits_eq, exponentBits_eq, floatWord_or, floatWord_or]
  simp

/-! ### The composed word -/

/-- A zero mantissa composes to 0 (R56). -/
theorem compose_zero (variant : LzcVariant) (sign : Bool) (bpo : Word) :
    compose variant sign bpo 0#32 = some 0x00000000#32 := by
  rw [compose, if_pos rfl]

/-- The composed word of a mantissa that is not 0, by the index `L` the leading zero unit reports: under either variant
it is the sign, `(L - s(bpo) + 127) mod 256` and `u(m) * 2^(23 - L) mod 2^23`, and above `L = 23` it is open (R55,
R58). -/
theorem compose_of_ne_zero {variant : LzcVariant} {m : Word} (hm : m ≠ 0#32) (sign : Bool) (bpo : Word) :
    compose variant sign bpo m =
      if lzcIndex variant m ≤ 23 then
        some (floatWord sign (BitVec.ofInt 8 (lzcIndex variant m - bpo.toInt + 127))
          (BitVec.ofNat 23 (m.toNat * 2 ^ (23 - lzcIndex variant m))))
      else none := by
  rw [compose, if_neg hm]
  rcases Nat.lt_or_ge 23 (lzcIndex variant m) with hgt | hle
  · rw [if_neg (not_le.2 hgt)]
    exact if_pos (by omega)
  · have hshift : (23 - lzcIndex variant m : Int).toNat = 23 - lzcIndex variant m := by omega
    rw [if_pos hle]
    refine (if_neg (by omega)).trans (congrArg some ?_)
    rw [composedParts_eq, hshift, sub_sub_cancel, asSigned]

/-- Where the index is at most 23 the composed word is specified. -/
theorem compose_of_le {variant : LzcVariant} {m : Word} {L : Nat} (hm : m ≠ 0#32) (hL : lzcIndex variant m = L)
    (hle : L ≤ 23) (sign : Bool) (bpo : Word) :
    compose variant sign bpo m =
      some (floatWord sign (BitVec.ofInt 8 (L - bpo.toInt + 127)) (BitVec.ofNat 23 (m.toNat * 2 ^ (23 - L)))) := by
  subst hL
  rw [compose_of_ne_zero hm, if_pos hle]

/-- Settles O23: the composer answers 0 before it looks at the sign and the offset, and FBSET stores the answer. -/
theorem zeroMantissaGivesPositiveZero : Obligations.ZeroMantissaGivesPositiveZero := by
  intro s variant sign bpo
  refine ⟨compose_zero variant sign bpo, ?_⟩
  rw [exec_fbset, compose_zero]
  rfl

/-! ### The closed form under MSB (R57) -/

/-- A mantissa of at most 24 bits has its msb index below 24. -/
theorem IsMsbIndex.le_23 {m : Word} {h : Nat} (hh : IsMsbIndex m h) (hm : m.toNat ≤ 2 ^ 24 - 1) : h ≤ 23 := by
  obtain ⟨hlo, -⟩ := (isMsbIndex_iff m h).1 hh
  have hlt : 2 ^ h < 2 ^ 24 := by omega
  exact Nat.le_of_lt_succ ((Nat.pow_lt_pow_iff_right (by decide)).1 hlt)

/-- Shifted left by `23 - h` the mantissa has its top bit at position 23. -/
theorem IsMsbIndex.leftAligned {m : Word} {h : Nat} (hh : IsMsbIndex m h) (hle : h ≤ 23) :
    2 ^ 23 ≤ m.toNat * 2 ^ (23 - h) ∧ m.toNat * 2 ^ (23 - h) < 2 ^ 24 := by
  obtain ⟨hlo, hhi⟩ := (isMsbIndex_iff m h).1 hh
  constructor
  · calc 2 ^ 23 = 2 ^ h * 2 ^ (23 - h) := by rw [← pow_add, Nat.add_sub_cancel' hle]
      _ ≤ m.toNat * 2 ^ (23 - h) := Nat.mul_le_mul_right _ hlo
  · calc m.toNat * 2 ^ (23 - h) < 2 ^ (h + 1) * 2 ^ (23 - h) := Nat.mul_lt_mul_of_pos_right hhi (by positivity)
      _ = 2 ^ 24 := by rw [← pow_add, show h + 1 + (23 - h) = 24 by omega]

/-- Settles O24: under MSB the index is the msb index, and the shift by `23 - h` left-aligns the mantissa. -/
theorem composeClosedForm : Obligations.ComposeClosedForm := by
  intro sign bpo m h hh hm
  have hle := hh.le_23 hm
  obtain ⟨-, hlt⟩ := hh.leftAligned hle
  exact ⟨hle, compose_of_le hh.ne_zero (lzcIndex_msb hh) hle sign bpo, hlt⟩

/-! ### The exponent field (R59) -/

/-- Modulo 256 an offset is its low 8 bits. -/
theorem ofInt_toInt_eq_extractLsb' (x : Word) : BitVec.ofInt 8 x.toInt = x.extractLsb' 0 8 := by
  apply BitVec.eq_of_toNat_eq
  rw [BitVec.toNat_ofInt, BitVec.extractLsb'_toNat, Nat.shiftRight_zero, BitVec.toInt_eq_toNat_cond]
  split <;> omega

/-- The composed word depends on the offset through its low 8 bits alone. -/
theorem compose_congr_offset {bpo bpo' : Word} (hlow : bpo'.extractLsb' 0 8 = bpo.extractLsb' 0 8)
    (variant : LzcVariant) (sign : Bool) (m : Word) :
    compose variant sign bpo' m = compose variant sign bpo m := by
  rcases eq_or_ne m 0#32 with rfl | hm
  · rw [compose_zero, compose_zero]
  · have hexp (L : Int) : BitVec.ofInt 8 (L - bpo'.toInt + 127) = BitVec.ofInt 8 (L - bpo.toInt + 127) := by
      simp only [sub_eq_add_neg, BitVec.ofInt_add, BitVec.ofInt_neg, ofInt_toInt_eq_extractLsb', hlow]
    rw [compose_of_ne_zero hm, compose_of_ne_zero hm, hexp]

theorem extractLsb'_ofInt_toInt_add_256 (x : Word) :
    (BitVec.ofInt 32 (x.toInt + 256)).extractLsb' 0 8 = x.extractLsb' 0 8 := by
  rw [BitVec.ofInt_add, BitVec.ofInt_toInt]
  apply BitVec.eq_of_toNat_eq
  rw [BitVec.extractLsb'_toNat, BitVec.extractLsb'_toNat, BitVec.toNat_add, BitVec.toNat_ofInt]
  omega

/-- Bits 30:23 of a specified composed word (R59). -/
theorem exponent_of_compose {variant : LzcVariant} {sign : Bool} {bpo m w : Word} (hm : m ≠ 0#32)
    (hw : compose variant sign bpo m = some w) :
    w.extractLsb' 23 8 = BitVec.ofInt 8 (lzcIndex variant m - bpo.toInt + 127) := by
  rw [compose_of_ne_zero hm] at hw
  split_ifs at hw
  obtain rfl := Option.some.inj hw
  exact exponent_floatWord _ _ _

/-- Settles O26: the exponent field is an 8-bit word, and modulo 256 an offset is its low 8 bits. -/
theorem exponentFieldWraps : Obligations.ExponentFieldWraps := by
  intro variant sign bpo m
  refine ⟨fun w hm hw => ?field, compose_congr_offset (extractLsb'_ofInt_toInt_add_256 bpo) variant sign m,
    fun bpo' hlow => compose_congr_offset hlow variant sign m⟩
  case field =>
    rw [exponent_of_compose hm hw, BitVec.toNat_ofInt]
    omega

/-! ### The float view of a word (R60) -/

/-- The integer `n` with a sign bit. -/
def signedInt (negative : Bool) (n : Nat) : Int := if negative then -(n : Int) else n

theorem cast_signedInt (negative : Bool) (n : Nat) :
    (signedInt negative n : ℚ) = (-1) ^ negative.toNat * n := by
  cases negative <;> simp [signedInt]

theorem toRat?_finite_signedInt (negative : Bool) (n : Nat) (e : Int) :
    (FloatValue.finite (signedInt negative n) e).toRat? = some ((-1) ^ negative.toNat * (n : ℚ) * 2 ^ e) := by
  rw [FloatValue.toRat?, cast_signedInt]

section
variable {w : Word}

/-- A normal number has the hidden bit of weight 2^23 above its fraction. -/
theorem floatValue_normal (h0 : (w.extractLsb' 23 8).toNat ≠ 0) (h255 : (w.extractLsb' 23 8).toNat ≠ 255) :
    floatValue w = .finite (signedInt (w.getLsbD 31) (2 ^ 23 + (w.extractLsb' 0 23).toNat))
      ((w.extractLsb' 23 8).toNat - 150) := by
  rw [floatValue, if_neg h255, if_neg h0]
  rfl

theorem floatValue_subnormal (hE : (w.extractLsb' 23 8).toNat = 0) (hF : (w.extractLsb' 0 23).toNat ≠ 0) :
    floatValue w = .finite (signedInt (w.getLsbD 31) (w.extractLsb' 0 23).toNat) (-149) := by
  rw [floatValue, if_neg (by omega), if_pos hE, if_neg hF]
  rfl

theorem floatValue_zero (hE : (w.extractLsb' 23 8).toNat = 0) (hF : (w.extractLsb' 0 23).toNat = 0) :
    floatValue w = .zero (w.getLsbD 31) := by
  rw [floatValue, if_neg (by omega), if_pos hE, if_pos hF]

theorem floatValue_infinity (hE : (w.extractLsb' 23 8).toNat = 255) (hF : (w.extractLsb' 0 23).toNat = 0) :
    floatValue w = .infinity (w.getLsbD 31) := by
  rw [floatValue, if_pos hE, if_pos hF]

theorem floatValue_nan (hE : (w.extractLsb' 23 8).toNat = 255) (hF : (w.extractLsb' 0 23).toNat ≠ 0) :
    floatValue w = .nan := by
  rw [floatValue, if_pos hE, if_neg hF]

end

/-- The fraction's 23 binary places move into the exponent. -/
theorem mul_zpow_sub_23 (x : ℚ) (k : Int) : x * 2 ^ (k - 23) = x / 2 ^ 23 * 2 ^ k := by
  rw [zpow_sub₀ two_ne_zero, zpow_ofNat]
  ring

/-- Settles O27: the integer significand and its exponent are R60's value, the binary point moved by 23 places. -/
theorem floatViewOfAWord : Obligations.FloatViewOfAWord := by
  intro w S E F
  refine ⟨fun ⟨hlo, hhi⟩ => ?normal, fun ⟨hE, hF⟩ => floatValue_zero hE hF, fun ⟨hE, hF⟩ => ?subnormal,
    fun ⟨hE, hF⟩ => floatValue_infinity hE hF, fun ⟨hE, hF⟩ => floatValue_nan hE hF⟩
  case normal =>
    rw [floatValue_normal (by omega) (by omega), toRat?_finite_signedInt]
    have hexp : (E : Int) - 150 = E - 127 - 23 := by ring
    have hsig : 1 + (F : ℚ) / 2 ^ 23 = ((2 ^ 23 + F : Nat) : ℚ) / 2 ^ 23 := by push_cast; ring
    rw [hexp, mul_zpow_sub_23, hsig, mul_div_assoc]
  case subnormal =>
    rw [floatValue_subnormal hE hF, toRat?_finite_signedInt]
    rw [show (-149 : Int) = -126 - 23 by ring, mul_zpow_sub_23, mul_div_assoc]

/-! ### The round trip (R63) -/

/-- A word with a left-aligned 24-bit significand `n` and an exponent field `e` of the normal range. -/
theorem toRat?_floatWord_normal {sign : Bool} {e : Int} {n : Nat} (he1 : 1 ≤ e) (he254 : e ≤ 254)
    (hn : 2 ^ 23 ≤ n) (hn' : n < 2 ^ 24) :
    (floatValue (floatWord sign (BitVec.ofInt 8 e) (BitVec.ofNat 23 n))).toRat? =
      some ((-1) ^ sign.toNat * (n : ℚ) * 2 ^ (e - 150)) := by
  have hexp : ((BitVec.ofInt 8 e).toNat : Int) = e := by rw [BitVec.toNat_ofInt]; omega
  have hsig : 2 ^ 23 + (BitVec.ofNat 23 n).toNat = n := by rw [BitVec.toNat_ofNat]; omega
  rw [floatValue_normal (by rw [exponent_floatWord]; omega) (by rw [exponent_floatWord]; omega),
    toRat?_finite_signedInt, getLsbD_floatWord, exponent_floatWord, fraction_floatWord, hexp, hsig]

/-- Settles O30: the closed form of R57 is a normal word whose significand is the mantissa, left-aligned. -/
theorem composedFloatReadsBackExactly : Obligations.ComposedFloatReadsBackExactly := by
  intro sign bpo m h hh hm hlo hhi
  obtain ⟨hle, hcompose, -⟩ := composeClosedForm sign bpo m h hh hm
  obtain ⟨hn, hn'⟩ := hh.leftAligned hle
  refine ⟨_, hcompose, ?_⟩
  rw [toRat?_floatWord_normal hlo hhi hn hn']
  have hscale : ((m.toNat * 2 ^ (23 - h) : Nat) : ℚ) * 2 ^ ((h : Int) - bpo.toInt + 127 - 150) =
      m.toNat * 2 ^ (-bpo.toInt) := by
    rw [Nat.cast_mul, Nat.cast_pow, Nat.cast_ofNat, ← zpow_natCast, mul_assoc, ← zpow_add₀ two_ne_zero,
      show ((23 - h : Nat) : Int) + ((h : Int) - bpo.toInt + 127 - 150) = -bpo.toInt by omega]
  rw [mul_assoc, hscale, mul_assoc]

/-! ### FBGET (R62) -/

/-- Settles O29: FBGET is the answer of `FB.word`, and a second answer replaces the first by itself. -/
theorem fbgetAnswersFbWord : Obligations.FbgetAnswersFbWord :=
  ⟨fun a b => decode_ctlOf false 0x3#4 a b, fun s => ⟨exec_fbget s, exec_fbget { s with result := some s.fb }⟩⟩

end Sys2Proof.Machine
end

