-- ==== Sys2Proof/Proofs/FixedPoint.lean ====
section
/-! The fixed-point units (43_fixed_point): construction by rounding (R67), the words of the six arithmetic commands
modulo 2^32 (R76), the two product widths (R80), and exactness on the represented reals (R81). -/

namespace Sys2Proof.Machine

/-! ### The nearest integer (R67) -/

/-- Closer than a half there is no tie to decide. -/
theorem isRounding_of_abs_lt {q : ℚ} {z : Int} (tie : TieRule) (h : |(z : ℚ) - q| < 1 / 2) : IsRounding tie q z :=
  ⟨h.le, fun htie => absurd htie h.ne⟩

/-- Less than a half above `f`, the nearest integer is `f`. -/
theorem isRounding_floor (tie : TieRule) {f : Int} {r : ℚ} (h0 : 0 ≤ r) (hr : r < 1 / 2) :
    IsRounding tie (f + r) f :=
  isRounding_of_abs_lt tie (by rwa [sub_add_cancel_left, abs_neg, abs_of_nonneg h0])

/-- More than a half above `f`, and not above `f + 1`, the nearest integer is `f + 1`. -/
theorem isRounding_floor_add_one (tie : TieRule) {f : Int} {r : ℚ} (hr : 1 / 2 < r) (h1 : r ≤ 1) :
    IsRounding tie (f + r) (f + 1) := by
  refine isRounding_of_abs_lt tie ?_
  rw [Int.cast_add, Int.cast_one, add_sub_add_left_eq_sub, abs_of_nonneg (sub_nonneg.2 h1)]
  linarith

theorem tieChoice_eq_or (tie : TieRule) (f : Int) : tieChoice tie f = f ∨ tieChoice tie f = f + 1 := by
  cases tie with
  | away => exact (ite_eq_or_eq ..).symm
  | even => exact ite_eq_or_eq ..
  | up => exact .inr rfl

/-- Half way between `f` and `f + 1` both are nearest, and the rule selects its own. -/
theorem isRounding_tieChoice (tie : TieRule) (f : Int) : IsRounding tie (f + 1 / 2) (tieChoice tie f) := by
  constructor
  · rcases tieChoice_eq_or tie f with h | h
    · rw [h, sub_add_cancel_left, abs_neg, abs_of_pos one_half_pos]
    · rw [h, Int.cast_add, Int.cast_one, add_sub_add_left_eq_sub, sub_half, abs_of_pos one_half_pos]
  · rintro -
    cases tie with
    | away =>
      rcases le_or_gt 0 f with hf | hf
      · have hf' : (0 : ℚ) ≤ f := Int.cast_nonneg hf
        rw [tieChoice, if_pos hf]
        push_cast
        rw [abs_of_nonneg (by linarith), abs_of_nonneg (by linarith)]
        linarith
      · have hf' : (f : ℚ) ≤ -1 := by exact_mod_cast Int.le_sub_one_of_lt hf
        rw [tieChoice, if_neg hf.not_ge, abs_of_neg (by linarith), abs_of_neg (by linarith)]
        linarith
    | even =>
      change tieChoice .even f % 2 = 0
      rw [tieChoice]
      split <;> omega
    | up =>
      change (f : ℚ) + 1 / 2 < (f + 1 : Int)
      push_cast
      linarith

/-- The quotient lies above its floor by `rest / d`, which is less than, more than or just a half. -/
theorem isRounding_roundQuotient (tie : TieRule) (m : Int) {d : Nat} (hd : 0 < d) :
    IsRounding tie ((m : ℚ) / d) (roundQuotient tie m d) := by
  have hdQ : (0 : ℚ) < d := Nat.cast_pos.2 hd
  have hrest : (0 : ℚ) ≤ (m % d : Int) := Int.cast_nonneg (Int.emod_nonneg m (by omega))
  have hrest' : ((m % d : Int) : ℚ) ≤ d := by exact_mod_cast (Int.emod_lt_of_pos m (Int.natCast_pos.2 hd)).le
  have hquot : (m : ℚ) / d = (m / d : Int) + (m % d : Int) / d := by
    rw [div_eq_iff hdQ.ne', add_mul, div_mul_cancel₀ _ hdQ.ne']
    exact_mod_cast (Int.ediv_mul_add_emod m d).symm
  simp only [roundQuotient]
  rw [hquot]
  split_ifs with hbelow habove
  · have h2 : (2 : ℚ) * (m % d : Int) < d := by exact_mod_cast hbelow
    exact isRounding_floor tie (div_nonneg hrest hdQ.le) ((div_lt_iff₀ hdQ).2 (by linarith))
  · have h2 : (d : ℚ) < 2 * (m % d : Int) := by exact_mod_cast habove
    exact isRounding_floor_add_one tie ((lt_div_iff₀ hdQ).2 (by linarith)) ((div_le_one hdQ).2 hrest')
  · have h2 : (2 : ℚ) * (m % d : Int) = d := by exact_mod_cast le_antisymm (not_lt.1 habove) (not_lt.1 hbelow)
    rw [(div_eq_iff hdQ.ne').2 (by linarith : ((m % d : Int) : ℚ) = 1 / 2 * d)]
    exact isRounding_tieChoice tie _

/-- Up to `k = 0` the scaled value is an integer, below it a quotient. -/
theorem isRounding_roundScaled (tie : TieRule) (m k : Int) :
    IsRounding tie ((m : ℚ) * 2 ^ k) (roundScaled tie m k) := by
  rw [roundScaled]
  rcases le_or_gt 0 k with hk | hk
  · obtain ⟨n, rfl⟩ := Int.eq_ofNat_of_zero_le hk
    rw [if_pos hk]
    simpa using isRounding_floor tie (f := m * 2 ^ n) le_rfl one_half_pos
  · obtain ⟨n, rfl⟩ := Int.exists_eq_neg_ofNat hk.le
    rw [if_neg hk.not_ge]
    simpa [div_eq_mul_inv] using isRounding_roundQuotient tie m (Nat.two_pow_pos n)

theorem fxFromReal_of_fits {cfg : Config} {m e : Int} (h : FitsWord (roundScaled cfg.tieRule m (e + cfg.shift.val))) :
    fxFromReal cfg m e = some (BitVec.ofInt 32 (roundScaled cfg.tieRule m (e + cfg.shift.val))) :=
  if_pos h

theorem fxFromReal_of_not_fits {cfg : Config} {m e : Int}
    (h : ¬ FitsWord (roundScaled cfg.tieRule m (e + cfg.shift.val))) : fxFromReal cfg m e = none :=
  if_neg h

/-- Settles O32: scaling by `2^SHIFT` adds to the exponent, and the integer is `roundScaled` of the sum. -/
theorem constructionRoundsToNearest : Obligations.ConstructionRoundsToNearest := by
  intro cfg m e
  refine ⟨roundScaled cfg.tieRule m (e + cfg.shift.val), ?_, fxFromReal_of_fits, fxFromReal_of_not_fits⟩
  rw [mul_assoc, ← zpow_natCast, ← zpow_add₀ two_ne_zero]
  exact isRounding_roundScaled _ _ _

/-! ### The words on their unsigned readings (R76) -/

theorem toNat_add_scaleInt (cfg : Config) (x k : Word) :
    (x + scaleInt cfg k).toNat = (x.toNat + k.toNat * 2 ^ cfg.shift.val) % 2 ^ 32 := by
  rw [BitVec.toNat_add, scaleInt, shiftLeft, BitVec.toNat_shiftLeft, Nat.shiftLeft_eq, Nat.add_mod_mod]

/-- The difference of two words is that of their unsigned readings, modulo 2^32. -/
theorem toNat_sub_emod (x y : Word) : ((x - y).toNat : Int) = (x.toNat - y.toNat) % 2 ^ 32 := by
  rw [BitVec.toNat_sub]
  omega

theorem toNat_sub_scaleInt (cfg : Config) (x k : Word) :
    ((x - scaleInt cfg k).toNat : Int) = (x.toNat - k.toNat * 2 ^ cfg.shift.val) % 2 ^ 32 := by
  rw [toNat_sub_emod, scaleInt, shiftLeft, BitVec.toNat_shiftLeft, Nat.shiftLeft_eq]
  push_cast
  rw [Int.sub_emod_emod]

/-- The low 32 bits of the product are the same for signed and unsigned operands (R74). -/
theorem toNat_product32 (x y : Word) : (product32 x y).toNat = x.toNat * y.toNat % 2 ^ 32 := by
  rw [product32, asSigned, asSigned, wrap32, BitVec.ofInt_mul, BitVec.ofInt_toInt, BitVec.ofInt_toInt, BitVec.toNat_mul]

theorem product32_eq_ofNat (x y : Word) : product32 x y = BitVec.ofNat 32 (x.toNat * y.toNat) :=
  BitVec.eq_of_toNat_eq (by rw [toNat_product32, BitVec.toNat_ofNat])

/-! ### The two widths of the product (R75, R80) -/

section
variable {cfg : Config} {x y : Word}

theorem fxProduct_w32 (h : cfg.mulIntermediate = .w32) :
    fxProduct cfg x y = shiftRightArith (product32 x y) cfg.shift.val := by
  rw [fxProduct, h]

theorem fxProduct_w64 (h : cfg.mulIntermediate = .w64) :
    fxProduct cfg x y = BitVec.ofInt 32 (x.toInt * y.toInt / 2 ^ cfg.shift.val) := by
  rw [fxProduct, h, asSigned, asSigned]

/-- A product that fits loses nothing in the cut to 32 bits, so under either width its floor is taken. -/
theorem fxProduct_of_fits (h : FitsWord (x.toInt * y.toInt)) :
    fxProduct cfg x y = BitVec.ofInt 32 (x.toInt * y.toInt / 2 ^ cfg.shift.val) := by
  cases hw : cfg.mulIntermediate with
  | w32 => rw [fxProduct_w32 hw, shiftRightArith_eq, product32, asSigned, asSigned, toInt_ofInt_of_fits h]
  | w64 => exact fxProduct_w64 hw

end

/-- Settles O42: both widths take the floor of a product that fits, and 2^16 * 2^16 is 0 modulo 2^32. -/
theorem productWidthsAgreeWithoutOverflow : Obligations.ProductWidthsAgreeWithoutOverflow := by
  refine ⟨fun cfg x y h => ?agree, fun cfg x y => ?floor, fun cfg h => ?differ⟩
  case agree => rw [fxProduct_of_fits h, fxProduct_of_fits h]
  case floor => rw [fxProduct_w64 rfl, floor_div_pow]
  case differ =>
    rw [fxProduct_w32 rfl, fxProduct_w64 rfl, h]
    decide

/-- Settles O43: each command writes the word operation's result, whose unsigned reading is the operation's modulo
2^32. -/
theorem arithmeticIsModulo32Bits : Obligations.ArithmeticIsModulo32Bits := by
  intro s k hw
  refine ⟨⟨_, (exec_fxaddi s k).trans (State.updateFx_written _ hw), toNat_add_scaleInt s.cfg s.fx k⟩,
    ⟨_, (exec_fxsubi s k).trans (State.updateFx_written _ hw), toNat_sub_scaleInt s.cfg s.fx k⟩,
    ⟨_, (exec_fxadd s k).trans (State.updateFx_written _ hw), BitVec.toNat_add s.fx k⟩,
    ⟨_, (exec_fxsub s k).trans (State.updateFx_written _ hw), toNat_sub_emod s.fx k⟩,
    ⟨_, (exec_fxmuli s k).trans (State.updateFx_written _ hw), toNat_product32 s.fx k⟩,
    ⟨_, (exec_fxmul s k).trans (State.updateFx_written _ hw), fun h32 => ?_⟩⟩
  exact (fxProduct_w32 h32).trans (by rw [product32_eq_ofNat, shiftRightArith])

/-! ### The represented reals (R81) -/

section
variable {cfg : Config}

theorem fxValue_ofInt {z : Int} (h : FitsWord z) : fxValue cfg (BitVec.ofInt 32 z) = z / 2 ^ cfg.shift.val := by
  rw [fxValue, toInt_ofInt_of_fits h]

/-- The scaled integer `k` represents `k`. -/
theorem scaled_div (k : Int) (n : Nat) : ((k * 2 ^ n : Int) : ℚ) / 2 ^ n = k := by
  push_cast
  exact mul_div_cancel_right₀ _ (by positivity)

theorem fxValue_add_scaleInt {x k : Word} (h : FitsWord (x.toInt + k.toInt * 2 ^ cfg.shift.val)) :
    fxValue cfg (x + scaleInt cfg k) = fxValue cfg x + k.toInt := by
  have hword : x + scaleInt cfg k = BitVec.ofInt 32 (x.toInt + k.toInt * 2 ^ cfg.shift.val) := by
    rw [scaleInt_eq, BitVec.ofInt_add, BitVec.ofInt_toInt]
  rw [hword, fxValue_ofInt h, Int.cast_add, add_div, scaled_div, fxValue]

theorem fxValue_sub_scaleInt {x k : Word} (h : FitsWord (x.toInt - k.toInt * 2 ^ cfg.shift.val)) :
    fxValue cfg (x - scaleInt cfg k) = fxValue cfg x - k.toInt := by
  have hword : x - scaleInt cfg k = BitVec.ofInt 32 (x.toInt - k.toInt * 2 ^ cfg.shift.val) := by
    rw [scaleInt_eq, ofInt_sub, BitVec.ofInt_toInt]
  rw [hword, fxValue_ofInt h, Int.cast_sub, sub_div, scaled_div, fxValue]

theorem fxValue_add {x y : Word} (h : FitsWord (x.toInt + y.toInt)) :
    fxValue cfg (x + y) = fxValue cfg x + fxValue cfg y := by
  have hword : x + y = BitVec.ofInt 32 (x.toInt + y.toInt) := by
    rw [BitVec.ofInt_add, BitVec.ofInt_toInt, BitVec.ofInt_toInt]
  rw [hword, fxValue_ofInt h, Int.cast_add, add_div, fxValue, fxValue]

theorem fxValue_sub {x y : Word} (h : FitsWord (x.toInt - y.toInt)) :
    fxValue cfg (x - y) = fxValue cfg x - fxValue cfg y := by
  have hword : x - y = BitVec.ofInt 32 (x.toInt - y.toInt) := by
    rw [ofInt_sub, BitVec.ofInt_toInt, BitVec.ofInt_toInt]
  rw [hword, fxValue_ofInt h, Int.cast_sub, sub_div, fxValue, fxValue]

theorem fxValue_product32 {x k : Word} (h : FitsWord (x.toInt * k.toInt)) :
    fxValue cfg (product32 x k) = fxValue cfg x * k.toInt := by
  rw [product32, asSigned, asSigned, fxValue_ofInt h, Int.cast_mul, mul_div_right_comm, fxValue]

/-- In units of `2^(-SHIFT)` the product of two represented reals is the product of their words, divided by
`2^SHIFT`. -/
theorem fxValue_mul_scaled (x y : Word) :
    fxValue cfg x * fxValue cfg y * 2 ^ cfg.shift.val = ((x.toInt * y.toInt : Int) : ℚ) / 2 ^ cfg.shift.val := by
  rw [fxValue, fxValue]
  push_cast
  field_simp

theorem fxValue_fxProduct {x y : Word} (h : FitsWord (x.toInt * y.toInt)) :
    fxValue cfg (fxProduct cfg x y) =
      (⌊fxValue cfg x * fxValue cfg y * 2 ^ cfg.shift.val⌋ : ℚ) / 2 ^ cfg.shift.val := by
  rw [fxProduct_of_fits h, fxValue_ofInt (fits_ediv h _), fxValue_mul_scaled, floor_div_pow]

end

/-- The next state of an arithmetic command on a written register holds `f` of the old word. -/
theorem fx_of_exec_eq_updateFx {s t : State} {i : Instr} {f : Word → Word} (hi : exec i s = s.updateFx f)
    (hw : s.fxWritten = true) (h : exec i s = .next t) : t.fx = f s.fx := by
  rw [hi, State.updateFx_written f hw] at h
  cases h
  rfl

/-- Settles O45: the word each command writes is its integer result, which represents the real result; that of FXMUL
is the floor of the exact product in units of `2^(-SHIFT)`. -/
theorem fixedPointIsExactWithoutOverflow : Obligations.FixedPointIsExactWithoutOverflow := by
  intro s t k hw
  refine ⟨fun h hfit => ?fxaddi, fun h hfit => ?fxsubi, fun h hfit => ?fxadd, fun h hfit => ?fxsub,
    fun h hfit => ?fxmuli, fun h hfit => ?fxmul⟩
  case fxaddi => rw [fx_of_exec_eq_updateFx (exec_fxaddi s k) hw h, fxValue_add_scaleInt hfit]
  case fxsubi => rw [fx_of_exec_eq_updateFx (exec_fxsubi s k) hw h, fxValue_sub_scaleInt hfit]
  case fxadd => rw [fx_of_exec_eq_updateFx (exec_fxadd s k) hw h, fxValue_add hfit]
  case fxsub => rw [fx_of_exec_eq_updateFx (exec_fxsub s k) hw h, fxValue_sub hfit]
  case fxmuli => rw [fx_of_exec_eq_updateFx (exec_fxmuli s k) hw h, fxValue_product32 hfit]
  case fxmul => rw [fx_of_exec_eq_updateFx (exec_fxmul s k) hw h, fxValue_fxProduct hfit]

end Sys2Proof.Machine
end

