-- ==== Sys2Proof/Proofs/RoundTrip.lean ====
section
/-! The decoder and the encoder undo each other (30_encoding R33 to R36), and the assembler lines (R40). -/

namespace Sys2Proof

open Sys2Proof.Machine

/-- Settles O3: the flat form loses nothing, and each instruction's command decodes to it. -/
theorem flatFormRoundTrip : Obligations.FlatFormRoundTrip := fun i =>
  (congrArg decode (Command.ofFlat_toFlat (encode i))).trans (Laws.RoundTrip.every i)

/-! ### The commands of an instruction -/

/-- The command stands for `i`: it has the control byte of `i`, and the operand words of `i` on the ports that `i` uses
(30_encoding R34, R35). -/
def Command.StandsFor (c : Command) (i : Instr) : Prop :=
  c.ctl = i.ctl ∧ (usesA i = true → c.a = i.portA) ∧ (usesB i = true → c.b = i.portB)

/-- A command that stands for an instruction decodes to it, whatever the ignored ports hold. -/
theorem Command.StandsFor.decode {c : Command} {i : Instr} (h : c.StandsFor i) : decode c = .ok i := by
  obtain ⟨ctl, a, b⟩ := c
  obtain ⟨rfl, ha, hb⟩ := h
  dsimp only at ha hb
  cases i with
  | popcnt => exact ha rfl ▸ decode_ctlOf false 0x0#4 a b
  | lzc => exact ha rfl ▸ decode_ctlOf false 0x1#4 a b
  | fbset sign =>
    obtain rfl := ha rfl
    obtain rfl := hb rfl
    cases sign
    · exact decode_ctlOf false 0x2#4 a b
    · exact decode_ctlOf true 0x2#4 a b
  | fbget => exact decode_ctlOf false 0x3#4 a b
  | fxld => exact ha rfl ▸ decode_ctlOf false 0x4#4 a b
  | fxget => exact decode_ctlOf false 0x5#4 a b
  | fxaddi => exact ha rfl ▸ decode_ctlOf false 0x6#4 a b
  | fxsubi => exact ha rfl ▸ decode_ctlOf false 0x7#4 a b
  | fxadd => exact ha rfl ▸ decode_ctlOf false 0x8#4 a b
  | fxsub => exact ha rfl ▸ decode_ctlOf false 0x9#4 a b
  | fxmuli => exact ha rfl ▸ decode_ctlOf false 0xA#4 a b
  | fxmul => exact ha rfl ▸ decode_ctlOf false 0xB#4 a b

/-- What the opcode map decodes stands for its result: the codes 0xC to 0xF decode to nothing, every other code to the
instruction that has it, and only FBSET with `s = 1`. -/
theorem standsFor_of_decodeOp {s : Bool} {op : BitVec 4} {a b : Word} {i : Instr}
    (h : decodeOp s op a b = .ok i) : Command.StandsFor ⟨ctlOf 0#3 s op, a, b⟩ i := by
  obtain ⟨n, hn, rfl⟩ : ∃ n < 16, op = BitVec.ofNat 4 n := ⟨op.toNat, op.isLt, by simp⟩
  cases s <;> interval_cases n <;> cases h
  all_goals exact ⟨rfl, by simp [usesA, Instr.portA], by simp [usesB, Instr.portB]⟩

theorem decode_eq_ok_iff_standsFor {c : Command} {i : Instr} : decode c = .ok i ↔ c.StandsFor i := by
  refine ⟨fun h => ?_, Command.StandsFor.decode⟩
  obtain ⟨hzero, hop⟩ := decode_eq_ok.1 h
  have hc := standsFor_of_decodeOp hop
  rwa [← hzero, ctlOf_fields] at hc

/-- Settles O4: a command that decodes stands for its instruction. -/
theorem decodedCommandsEncodeBack : Obligations.DecodedCommandsEncodeBack := by
  intro c i h
  obtain ⟨hctl, ha, hb⟩ := decode_eq_ok_iff_standsFor.1 h
  exact ⟨hctl.symm, fun hu => (ha hu).symm, fun hu => (hb hu).symm⟩

/-- Settles O5: standing for an instruction says nothing of the ports it ignores. -/
theorem ignoredPortsDoNotMatter : Obligations.IgnoredPortsDoNotMatter := by
  intro c d i h hctl ha hb
  obtain ⟨hctl', ha', hb'⟩ := decode_eq_ok_iff_standsFor.1 h
  exact decode_eq_ok_iff_standsFor.2
    ⟨hctl.trans hctl', fun hu => (ha hu).trans (ha' hu), fun hu => (hb hu).trans (hb' hu)⟩

/-- Settles O6: each line of the table is one line of `assemble`, and `encode` gives its command. -/
theorem assemblerLinesStandForTheirCommands : Obligations.AssemblerLinesStandForTheirCommands := fun _ _ =>
  ⟨rfl, rfl, rfl, rfl, rfl, rfl, rfl, rfl, rfl, rfl, rfl, rfl, rfl⟩

end Sys2Proof
end

