-- ==== Sys2Proof/Proofs/Commands.lean ====
section
/-! What every command does, said once: a read of an unwritten `FX.word` is REFUSE(fx_unwritten), and any other command
settles one word, answers it and stores it in the register it writes. The frame of a command (10_state R10 to R12), the
absence of hidden state (R18) and the independence of the groups (70_reset_and_hazards R97) follow. -/

namespace Sys2Proof.Machine

/-! ### The effect of a command -/

/-- The word a command computes; `none` where the spec leaves it open (60_exceptions R88). -/
def commandWord (s : State) : Instr → Option Word
  | .popcnt x => some (zext32 (popcount32 x))
  | .lzc x => lzcResult s.cfg x
  | .fbset sign bpo m => compose s.cfg.lzcVariant sign bpo m
  | .fbget => some s.fb
  | .fxld v => fxFromPattern s.cfg v
  | .fxget => some s.fx
  | .fxaddi k => some (s.fx + scaleInt s.cfg k)
  | .fxsubi k => some (s.fx - scaleInt s.cfg k)
  | .fxadd w => some (s.fx + w)
  | .fxsub w => some (s.fx - w)
  | .fxmuli k => some (product32 s.fx k)
  | .fxmul w => some (fxProduct s.cfg s.fx w)

/-- The state in which a command completes with the word `v`: it is answered, and stored in the register the command
writes; where it is open one free value is drawn. -/
def State.complete (s : State) (i : Instr) (v : Option Word) : State :=
  { s with
    fb := if writesFb i then s.settle v else s.fb
    fx := if writesFx i then s.settle v else s.fx
    fxWritten := s.fxWritten || writesFx i
    result := some (s.settle v)
    draws := s.draws + if v.isNone then 1 else 0 }

section
variable (s : State) (i : Instr) (v : Option Word)

@[simp] theorem State.complete_cfg : (s.complete i v).cfg = s.cfg := rfl
@[simp] theorem State.complete_fb : (s.complete i v).fb = if writesFb i then s.settle v else s.fb := rfl
@[simp] theorem State.complete_fx : (s.complete i v).fx = if writesFx i then s.settle v else s.fx := rfl
@[simp] theorem State.complete_fxWritten : (s.complete i v).fxWritten = (s.fxWritten || writesFx i) := rfl
@[simp] theorem State.complete_fxRefusals : (s.complete i v).fxRefusals = s.fxRefusals := rfl
@[simp] theorem State.complete_result : (s.complete i v).result = some (s.settle v) := rfl
@[simp] theorem State.complete_pending : (s.complete i v).pending = s.pending := rfl
@[simp] theorem State.complete_draws : (s.complete i v).draws = s.draws + if v.isNone then 1 else 0 := rfl

end

/-- The command reads `FX.word` before anything has written it: the outcome is REFUSE(fx_unwritten) (60_exceptions
R88). -/
def ReadsUnwritten (i : Instr) (s : State) : Prop := readsFx i = true ∧ s.fxWritten = false

theorem not_readsUnwritten_iff {i : Instr} {s : State} :
    ¬ ReadsUnwritten i s ↔ (readsFx i = true → s.fxWritten = true) := by
  rw [ReadsUnwritten, not_and, Bool.not_eq_false]

/-- The fixed-point group leaves `FB.word` alone (70_reset_and_hazards R97). -/
theorem fb_unused_of_fixedPoint {j : Instr} (h : readsFx j = true ∨ writesFx j = true) :
    readsFb j = false ∧ writesFb j = false := by
  cases j with
  | popcnt | lzc | fbset | fbget => simp [readsFx, writesFx] at h
  | _ => exact ⟨rfl, rfl⟩

/-- The six arithmetic commands, the readers of `FX.word` that write it, are updates of it by the word they compute
(43_fixed_point R70 to R75). -/
theorem exists_exec_eq_updateFx {i : Instr} (hreads : readsFx i = true) (hwrites : writesFx i = true) (s : State) :
    ∃ f, exec i s = s.updateFx f ∧ commandWord s i = some (f s.fx) := by
  cases i with
  | popcnt | lzc | fbset | fbget | fxld => cases hreads
  | fxget => cases hwrites
  | fxaddi k => exact ⟨_, exec_fxaddi s k, rfl⟩
  | fxsubi k => exact ⟨_, exec_fxsubi s k, rfl⟩
  | fxadd w => exact ⟨_, exec_fxadd s w, rfl⟩
  | fxsub w => exact ⟨_, exec_fxsub s w, rfl⟩
  | fxmuli k => exact ⟨_, exec_fxmuli s k, rfl⟩
  | fxmul w => exact ⟨_, exec_fxmul s w, rfl⟩

theorem exec_of_readsUnwritten {i : Instr} {s : State} (h : ReadsUnwritten i s) : exec i s = .next s.refuseFx := by
  obtain ⟨hreads, hw⟩ := h
  cases i with
  | popcnt | lzc | fbset | fbget | fxld => cases hreads
  | fxget => exact State.withFx_unwritten _ hw
  | _ =>
    obtain ⟨f, he, -⟩ := exists_exec_eq_updateFx hreads rfl s
    exact he.trans (State.updateFx_unwritten f hw)

/-- A written register is read, and the commands that do not read it never look at its mark. -/
theorem exec_of_not_readsUnwritten {i : Instr} {s : State} (h : ¬ ReadsUnwritten i s) :
    exec i s = .next (s.complete i (commandWord s i)) := by
  have hw := not_readsUnwritten_iff.1 h
  by_cases harith : readsFx i = true ∧ writesFx i = true
  · obtain ⟨hreads, hwrites⟩ := harith
    obtain ⟨f, he, hf⟩ := exists_exec_eq_updateFx hreads hwrites s
    obtain ⟨-, hfb⟩ := fb_unused_of_fixedPoint (.inl hreads)
    rw [he, hf, State.updateFx_written f (hw hreads)]
    simp [State.complete, hfb, hwrites, hw hreads]
  · cases i with
    | popcnt | fbget => simp [exec_popcnt, exec_fbget, State.answer, State.complete, commandWord, writesFb, writesFx]
    | lzc x =>
      rw [exec_lzc, commandWord]
      cases lzcResult s.cfg x <;> simp [State.answer, State.complete, writesFb, writesFx]
    | fbset sign bpo m =>
      rw [exec_fbset, commandWord]
      cases compose s.cfg.lzcVariant sign bpo m <;>
        simp [State.answer, State.writeFb, State.complete, writesFb, writesFx]
    | fxld v =>
      rw [exec_fxld, commandWord]
      cases fxFromPattern s.cfg v <;> simp [State.answer, State.writeFx, State.complete, writesFb, writesFx]
    | fxget =>
      rw [exec_fxget, State.withFx_written _ (hw rfl)]
      simp [State.answer, State.complete, commandWord, writesFb, writesFx]
    | _ => exact absurd ⟨rfl, rfl⟩ harith

/-- What a command can do, said once. -/
theorem exec_cases (i : Instr) (s : State) :
    (ReadsUnwritten i s ∧ exec i s = .next s.refuseFx) ∨
    (¬ ReadsUnwritten i s ∧ exec i s = .next (s.complete i (commandWord s i))) := by
  by_cases h : ReadsUnwritten i s
  · exact .inl ⟨h, exec_of_readsUnwritten h⟩
  · exact .inr ⟨h, exec_of_not_readsUnwritten h⟩

/-- Every command completes (60_exceptions R83). -/
theorem exists_exec_eq_next (i : Instr) (s : State) : ∃ t, exec i s = .next t := by
  rcases exec_cases i s with ⟨-, h⟩ | ⟨-, h⟩
  · exact ⟨_, h⟩
  · exact ⟨_, h⟩

/-- The open cases are those without a word (60_exceptions R88). -/
theorem resultOpen_eq_isNone (s : State) (i : Instr) : resultOpen s.cfg i = (commandWord s i).isNone := by
  cases i <;> rfl

theorem resultOpen_of_readsFx {i : Instr} (cfg : Config) (h : readsFx i = true) : resultOpen cfg i = false := by
  cases i with
  | lzc | fbset | fxld => cases h
  | _ => rfl

/-- A specified result is a word. -/
theorem exists_commandWord {s : State} {i : Instr} (h : resultOpen s.cfg i = false) :
    ∃ w, commandWord s i = some w := by
  rw [resultOpen_eq_isNone, Option.isNone_eq_false_iff] at h
  exact Option.isSome_iff_exists.1 h

/-! ### The frame -/

/-- Settles O46: the frame is that of `State.refuseFx` on a read of an unwritten `FX.word`, and that of
`State.complete` otherwise. -/
theorem frameOfEveryCommand : Obligations.FrameOfEveryCommand := by
  intro i s t ht
  rcases exec_cases i s with ⟨h, he⟩ | ⟨h, he⟩
  all_goals
    obtain rfl := Host.Outcome.next.inj (he.symm.trans ht)
  · obtain ⟨hreads, hw⟩ := h
    refine ⟨rfl, rfl, rfl, ?_, fun _ _ => rfl, fun hn => absurd ⟨hreads, hw⟩ hn⟩
    simp [resultOpen_of_readsFx s.cfg hreads]
  · refine ⟨rfl, rfl, rfl, ?_, fun hreads hw => absurd ⟨hreads, hw⟩ h, fun _ => ⟨rfl, ?_, ?_, ?_⟩⟩
    · rw [resultOpen_eq_isNone, State.complete_draws]
    · intro hfb
      simp [hfb]
    · intro hfx
      simp [hfx]
    · intro hfx
      simp [hfx]

/-! ### No hidden state -/

/-- The word depends on the constants of the block and on the register the command reads (10_state R18). -/
theorem commandWord_congr {i : Instr} {s₁ s₂ : State} (hcfg : s₁.cfg = s₂.cfg)
    (hfx : readsFx i = true → s₁.fx = s₂.fx) (hfb : readsFb i = true → s₁.fb = s₂.fb) :
    commandWord s₁ i = commandWord s₂ i := by
  cases i with
  | popcnt => rfl
  | lzc | fbset | fxld => simp only [commandWord, hcfg]
  | fbget => simp only [commandWord, hfb rfl]
  | _ => simp only [commandWord, hfx rfl, hcfg]

/-- Settles O47: both states settle the same word. -/
theorem noHiddenState : Obligations.NoHiddenState := by
  intro i s₁ s₂ t₁ hcfg hfx hfb hspec ht₁
  obtain ⟨hsame, hwritten₁, hwritten₂⟩ :
      (readsFx i = true → s₁.fx = s₂.fx) ∧ (readsFx i = true → s₁.fxWritten = true) ∧
      (readsFx i = true → s₂.fxWritten = true) := by
    rwa [← imp_and, ← imp_and]
  have hread₁ := not_readsUnwritten_iff.2 hwritten₁
  have hread₂ := not_readsUnwritten_iff.2 hwritten₂
  obtain ⟨w, hw₁⟩ := exists_commandWord hspec
  have hw₂ : commandWord s₂ i = some w := by rw [← commandWord_congr hcfg hsame hfb, hw₁]
  rw [exec_of_not_readsUnwritten hread₁, hw₁] at ht₁
  obtain rfl := Host.Outcome.next.inj ht₁
  refine ⟨s₂.complete i (some w), by rw [exec_of_not_readsUnwritten hread₂, hw₂], rfl, ?_, ?_⟩
  · intro hwrites
    simp [hwrites]
  · intro hwrites
    simp [hwrites]

/-! ### The groups -/

/-- Settles O48: neither command reads or writes the register of the other's group, so each settles the same word in
either order. -/
theorem groupsInterleaveFreely : Obligations.GroupsInterleaveFreely := by
  intro i j s t u hreads hwrites hgroup hspeci hspecj hwritten ht hu
  obtain ⟨hjreads, hjwrites⟩ := fb_unused_of_fixedPoint hgroup
  obtain ⟨wi, hwi⟩ := exists_commandWord hspeci
  obtain ⟨wj, hwj⟩ := exists_commandWord hspecj
  have hi (s' : State) : ¬ ReadsUnwritten i s' := not_readsUnwritten_iff.2 fun hr => by simp [hreads] at hr
  have hj {s' : State} (hs' : s'.fxWritten = s.fxWritten) : ¬ ReadsUnwritten j s' :=
    not_readsUnwritten_iff.2 fun hr => hs'.trans (hwritten hr)
  have hword : commandWord (s.complete i (some wi)) j = some wj := by
    rw [← hwj]
    refine commandWord_congr rfl (fun _ => ?_) (fun h => ?_)
    · simp [hwrites]
    · simp [hjreads] at h
  have hword' : commandWord (s.complete j (some wj)) i = some wi := by
    rw [← hwi]
    refine commandWord_congr rfl (fun h => ?_) (fun _ => ?_)
    · simp [hreads] at h
    · simp [hjwrites]
  rw [exec_of_not_readsUnwritten (hi s), hwi] at ht
  obtain rfl := Host.Outcome.next.inj ht
  rw [exec_of_not_readsUnwritten (hj (by simp [hwrites])), hword] at hu
  obtain rfl := Host.Outcome.next.inj hu
  refine ⟨s.complete j (some wj), (s.complete j (some wj)).complete i (some wi), ?_, ?_, ?_, ?_, ?_, rfl, rfl, rfl⟩
  · rw [exec_of_not_readsUnwritten (hj rfl), hwj]
  · rw [exec_of_not_readsUnwritten (hi _), hword']
  · simp [hjwrites]
  · simp [hwrites]
  · simp [hwrites]

end Sys2Proof.Machine
end

