-- ==== Sys2Proof/Proofs/Steps.lean ====
section
/-! One step (20_memory R25, R28): the command, the reset or the wait it carries out, and what every step
keeps. -/

namespace Sys2Proof.Machine

/-! ### A command -/

section
variable {s : State} {c : Command} {rest : List Request} {i : Instr}

theorem step_command_clean (hp : s.pending = .command c :: rest) (hd : decode c = .ok i) (h0 : s.fxRefusals = 0) :
    step s = exec i { s with pending := rest } := by
  rw [step_cons hp, carryOut, runCommand_ok _ hd]
  exact State.keepRefusal_clean _ h0

theorem step_command_refused (hp : s.pending = .command c :: rest) (hd : decode c = .ok i) (h0 : s.fxRefusals ≠ 0) :
    step s = .next { s with pending := rest }.refuseFx := by
  rw [step_cons hp, carryOut, runCommand_ok _ hd]
  exact State.keepRefusal_refused _ h0

theorem step_of_readsUnwritten (hp : s.pending = .command c :: rest) (hd : decode c = .ok i)
    (h : ReadsUnwritten i s) : step s = .next { s with pending := rest }.refuseFx := by
  rcases eq_or_ne s.fxRefusals 0 with h0 | h0
  · exact (step_command_clean hp hd h0).trans (exec_of_readsUnwritten h)
  · exact step_command_refused hp hd h0

theorem step_complete (hp : s.pending = .command c :: rest) (hd : decode c = .ok i) (h0 : s.fxRefusals = 0)
    (h : ¬ ReadsUnwritten i s) : step s = .next ({ s with pending := rest }.complete i (commandWord s i)) := by
  have hword : commandWord { s with pending := rest } i = commandWord s i :=
    commandWord_congr rfl (fun _ => rfl) (fun _ => rfl)
  rw [step_command_clean hp hd h0, ← hword]
  exact exec_of_not_readsUnwritten h

end

/-- Settles O7: the step of a command, in a clean run and in a refused one. -/
theorem stepRunsTheDecodedCommand : Obligations.StepRunsTheDecodedCommand := fun _ _ _ _ hp hd =>
  ⟨step_command_clean hp hd, step_command_refused hp hd⟩

theorem decode_of_decodeTableWord {nbits w : Nat} {i : Instr} (h : decodeTableWord nbits w = some i) :
    decode (commandOfTableWord nbits w) = .ok i := by
  rw [decodeTableWord] at h
  split at h
  next hd => exact hd.trans (congrArg _ (Option.some.inj h))
  next => cases h

/-- Settles O8: the placed word is the next request, and taking it leaves the state itself. -/
theorem placedTableWordRunsNext : Obligations.PlacedTableWordRunsNext := by
  intro s nbits w i h
  have hd := decode_of_decodeTableWord h
  exact ⟨step_command_clean (s := s.withFetchWord nbits w) rfl hd,
    step_command_refused (s := s.withFetchWord nbits w) rfl hd⟩

/-- Settles O9: the one request issued is the next, and taking it leaves the waiting state. -/
theorem theBlockWaitsForTheHost : Obligations.TheBlockWaitsForTheHost := by
  intro s hp
  have hissued (q : Request) : (s.issue q).pending = q :: [] := by rw [State.issue_pending, hp, List.nil_append]
  have htaken (q : Request) : { s.issue q with pending := [] } = s := by
    rw [← hp]
    rfl
  refine ⟨fun h0 => ⟨?_, fun c i hd => ?_⟩, fun h0 => ⟨?_, fun c i hd => ?_⟩⟩
  · rw [step_nil hp, State.keepRefusal_clean _ h0]
  · rw [step_command_clean (hissued _) hd h0, htaken]
  · rw [step_nil hp, State.keepRefusal_refused _ h0]
  · rw [step_command_refused (hissued _) hd h0, htaken]

/-- Settles O44: the word an arithmetic command computes is stored and answered, and no refusal is counted. -/
theorem arithmeticChains : Obligations.ArithmeticChains := by
  intro s t c d rest i j hp hc hd hreads hwrites hw h0 ht
  have hread : ¬ ReadsUnwritten i s := not_readsUnwritten_iff.2 fun _ => hw
  rw [step_complete hp hc h0 hread] at ht
  obtain rfl := Host.Outcome.next.inj ht
  exact ⟨by simp [hwrites], rfl, step_command_clean rfl hd h0⟩

/-! ### A reset -/

section
variable {s : State} {rest : List Request}

theorem step_reset_clean (hp : s.pending = .reset :: rest) (h0 : s.fxRefusals = 0) :
    step s = .next { s with pending := rest }.applyReset := by
  rw [step_cons hp, carryOut]
  exact State.keepRefusal_clean _ h0

theorem step_reset_refused (hp : s.pending = .reset :: rest) (h0 : s.fxRefusals ≠ 0) :
    step s = .next { s with pending := rest }.refuseFx := by
  rw [step_cons hp, carryOut]
  exact State.keepRefusal_refused _ h0

end

/-- Settles O12: FBGET answers `FB.word`, which is 0 after a reset. -/
theorem fbWordAfterReset : Obligations.FbWordAfterReset :=
  ⟨rfl, exec_fbget State.reset, fun _ _ hp h0 => ⟨_, step_reset_clean hp h0, rfl, exec_fbget _⟩⟩

/-- Settles O14: the fields of the reset action. -/
theorem effectOfReset : Obligations.EffectOfReset :=
  ⟨fun _ _ hp h0 => ⟨_, step_reset_clean hp h0, rfl, rfl, rfl, rfl, rfl⟩,
    fun _ _ hp h0 => step_reset_refused hp h0, rfl, rfl, rfl⟩

/-- Settles O13: the seven commands read `FX.word`, and FXLD does not. -/
theorem readsOfUnwrittenFxWordAreRecorded : Obligations.ReadsOfUnwrittenFxWordAreRecorded := by
  refine ⟨⟨rfl, rfl, rfl⟩, fun s k hw i hi => ?reads, fun s v => ⟨_, exec_fxld s v, rfl, ?loads⟩⟩
  case reads =>
    have hreads : readsFx i = true := by
      revert i
      simp [readsFx]
    exact exec_of_readsUnwritten ⟨hreads, hw⟩
  case loads => simp

/-! ### What a step can answer -/

/-- Settles O11: the decoder comes first, then the mark of `FX.word`; a command that computes an open word is none that
reads `FX.word`. -/
theorem orderOfChecks : Obligations.OrderOfChecks := by
  intro s c rest hp
  refine ⟨fun hc => ⟨_, step_reserved hp hc⟩, fun i hd hreads hw => ?unwritten, fun i hd hopen h0 => ?opened,
    fun i hd h0 => ⟨_, step_command_refused hp hd h0, rfl⟩⟩
  case unwritten => exact ⟨_, step_of_readsUnwritten hp hd ⟨hreads, hw⟩, rfl, rfl⟩
  case opened =>
    have hread : ¬ ReadsUnwritten i s := fun ⟨hreads, _⟩ => by simp [resultOpen_of_readsFx s.cfg hreads] at hopen
    refine ⟨_, step_complete hp hd h0 hread, ?_, h0⟩
    rw [resultOpen_eq_isNone] at hopen
    simp [hopen]

/-- A step answers a next state, or refuses a reserved command with the count of the refusals before it. -/
theorem step_total (s : State) : (∃ t, step s = .next t) ∨ step s = .refused (.reservedEncoding s.fxRefusals) := by
  have kept (s u : State) : ∃ t, s.keepRefusal (.next u) = .next t := by
    rcases eq_or_ne s.fxRefusals 0 with h0 | h0
    · exact ⟨u, State.keepRefusal_clean _ h0⟩
    · exact ⟨_, State.keepRefusal_refused _ h0⟩
  rcases step_cases s with ⟨-, h⟩ | ⟨rest, -, h⟩ | ⟨c, rest, i, -, -, h⟩ | ⟨c, rest, e, -, -, h⟩
  · exact .inl (h ▸ kept _ _)
  · exact .inl (h ▸ kept _ _)
  · obtain ⟨u, hu⟩ := exists_exec_eq_next i { s with pending := rest }
    exact .inl (h ▸ hu ▸ kept _ u)
  · exact .inr h

/-- In a refused run the next state is not defined. -/
theorem step_next_of_refused {s t : State} (h0 : s.fxRefusals ≠ 0) (h : step s = .next t) :
    t = { s with pending := s.pending.tail }.refuseFx := by
  rcases step_refused h0 with ⟨-, ht⟩ | ⟨c, rest, e, -, -, ht⟩
  · exact (Host.Outcome.next.inj (ht.symm.trans h)).symm
  · cases ht.symm.trans h

/-- What every step keeps: the constants of the block, the requests after the one it takes, and the refusals counted
before it (10_state R16, 20_memory R28, 60_exceptions R88). -/
theorem step_frame {s t : State} (h : step s = .next t) :
    t.cfg = s.cfg ∧ t.pending = s.pending.tail ∧ s.fxRefusals ≤ t.fxRefusals := by
  rcases eq_or_ne s.fxRefusals 0 with h0 | h0
  · rw [h0]
    rcases step_clean h0 with ⟨hp, ht⟩ | ⟨rest, hp, ht⟩ | ⟨c, rest, i, hp, -, ht⟩ | ⟨c, rest, e, -, -, ht⟩
    · obtain rfl := Host.Outcome.next.inj (ht.symm.trans h)
      exact ⟨rfl, by rw [hp, List.tail_nil], Nat.zero_le _⟩
    · obtain rfl := Host.Outcome.next.inj (ht.symm.trans h)
      exact ⟨rfl, by rw [hp, List.tail_cons]; rfl, Nat.zero_le _⟩
    · obtain ⟨hcfg, hpending, -⟩ := frameOfEveryCommand i _ t (ht.symm.trans h)
      exact ⟨hcfg, by rw [hpending, hp, List.tail_cons], Nat.zero_le _⟩
    · cases ht.symm.trans h
  · obtain rfl := step_next_of_refused h0 h
    exact ⟨rfl, rfl, Nat.le_succ _⟩

theorem fxRefusals_le_of_step {s t : State} (h : step s = .next t) : s.fxRefusals ≤ t.fxRefusals := by
  obtain ⟨-, -, hle⟩ := step_frame h
  exact hle

/-- Settles O49: the constants are in the frame of every step. -/
theorem constantsNeverChange : Obligations.ConstantsNeverChange := by
  intro s t h
  obtain ⟨hcfg, -, -⟩ := step_frame h
  exact ⟨hcfg, fun hn => hcfg ▸ hn⟩

/-! ### Several instances -/

/-- The system steps as its `i`-th block does. -/
theorem stepAt_eq_next_iff {sys sys' : System} {i : Fin sys.length} :
    sys.stepAt i = .next sys' ↔ ∃ t, step (sys.get i) = .next t ∧ sys' = sys.set i t := by
  rw [System.stepAt]
  cases step (sys.get i) with
  | next t => simp [eq_comm]
  | fault r => simp
  | refused r => simp

/-- Settles O53: the system's step puts the block's own next state in its place. -/
theorem instancesShareNothing : Obligations.InstancesShareNothing := by
  constructor
  · intro sys sys' i h
    obtain ⟨t, ht, rfl⟩ := stepAt_eq_next_iff.1 h
    refine ⟨t, ht, List.length_set, List.getElem?_set_self i.isLt, fun j hj => List.getElem?_set_ne hj.symm⟩
  · intro sys₁ sys₂ i₁ i₂ sys₁' hsame h
    obtain ⟨t, ht, rfl⟩ := stepAt_eq_next_iff.1 h
    refine ⟨_, stepAt_eq_next_iff.2 ⟨t, hsame ▸ ht, rfl⟩, ?_⟩
    rw [List.getElem?_set_self i₂.isLt, List.getElem?_set_self i₁.isLt]

end Sys2Proof.Machine
end

