-- ==== Sys2Proof/Proofs/Runs.lean ====
section
/-! Runs of any length: the outcomes they can have (60_exceptions R88), and the streams that run without a refusal
(70_reset_and_hazards R95). -/

namespace Sys2Proof.Machine

/-! ### The shape of a run -/

theorem core_run_succ_next {s t : State} {k : Nat} :
    core.run (k + 1) s = .next t ↔ ∃ u, step s = .next u ∧ core.run k u = .next t := by
  rcases step_total s with ⟨u, hu⟩ | hr
  · rw [core_run_next k hu, hu]
    simp
  · rw [core_run_refused k hr, hr]
    simp

/-- What every step keeps, a run keeps. -/
theorem core_run_keeps {P : State → Prop} (hstep : ∀ {s t : State}, P s → step s = .next t → P t) {s t : State}
    {k : Nat} (hs : P s) (h : core.run k s = .next t) : P t := by
  induction k generalizing s with
  | zero =>
    obtain rfl := Host.Outcome.next.inj h
    exact hs
  | succ k ih =>
    obtain ⟨u, hu, hrun⟩ := core_run_succ_next.1 h
    exact ih (hstep hs hu) hrun

/-- A run answers a state, or a reserved command ends it with the count of the refusals before it. -/
theorem core_run_total (k : Nat) (s : State) :
    (∃ t, core.run k s = .next t) ∨ ∃ n, core.run k s = .refused (.reservedEncoding n) ∧ s.fxRefusals ≤ n := by
  induction k generalizing s with
  | zero => exact .inl ⟨s, rfl⟩
  | succ k ih =>
    rcases step_total s with ⟨u, hu⟩ | hr
    · rw [core_run_next k hu]
      rcases ih u with hnext | ⟨n, hrun, hn⟩
      · exact .inl hnext
      · exact .inr ⟨n, hrun, (fxRefusals_le_of_step hu).trans hn⟩
    · exact .inr ⟨_, core_run_refused k hr, le_rfl⟩

/-- Each step takes one request. -/
theorem core_run_pending {s t : State} {k : Nat} (h : core.run k s = .next t) : t.pending = s.pending.drop k := by
  induction k generalizing s with
  | zero =>
    obtain rfl := Host.Outcome.next.inj h
    rfl
  | succ k ih =>
    obtain ⟨u, hu, hrun⟩ := core_run_succ_next.1 h
    obtain ⟨-, hpending, -⟩ := step_frame hu
    rw [ih hrun, hpending, List.drop_tail]

/-! ### The outcomes of a step and of a run -/

/-- The state is not defined: REFUSE(fx_unwritten) left a free value in each register, in the mark and on the port, at
the step after the `n`-th counted one, for an `n` from `N` on (60_exceptions R88; log 21). -/
def State.UndefinedSince (N : Nat) (t : State) : Prop :=
  ∃ n, N ≤ n ∧ t.fxRefusals = n + 1 ∧ t.fb = Config.undefinedFb n ∧ t.fx = Config.undefinedFx n ∧
    t.fxWritten = Config.undefinedMark n ∧ t.result = some (Config.undefinedResult n)

theorem step_undefinedSince {s t : State} {N : Nat} (hN : N ≤ s.fxRefusals) (h0 : s.fxRefusals ≠ 0)
    (h : step s = .next t) : t.UndefinedSince N := by
  obtain rfl := step_next_of_refused h0 h
  exact ⟨_, hN, rfl, rfl, rfl, rfl, rfl⟩

theorem State.UndefinedSince.step {s t : State} {N : Nat} (hs : s.UndefinedSince N) (h : step s = .next t) :
    t.UndefinedSince N := by
  obtain ⟨n, hn, hcount, -⟩ := hs
  exact step_undefinedSince (by omega) (by omega) h

/-- In a refused run every later state is not defined. -/
theorem core_run_undefined {s t : State} {k : Nat} (h0 : s.fxRefusals ≠ 0) (h : core.run (k + 1) s = .next t) :
    t.UndefinedSince s.fxRefusals := by
  obtain ⟨u, hu, hrun⟩ := core_run_succ_next.1 h
  exact core_run_keeps State.UndefinedSince.step (step_undefinedSince le_rfl h0 hu) hrun

/-- The outcome of a step that takes a command of defined control byte. -/
theorem step_command_outcome {s : State} {c : Command} {rest : List Request} {i : Instr}
    (hp : s.pending = .command c :: rest) (hd : decode c = .ok i) :
    if s.fxRefusals ≠ 0 ∨ (readsFx i = true ∧ s.fxWritten = false) then
      step s = .next { s with pending := rest }.refuseFx
    else ∃ (t : State) (w : Word), step s = .next t ∧ t.result = some w ∧ t.pending = rest ∧ t.fxRefusals = 0 ∧
      (if resultOpen s.cfg i = true then
        w = Config.freeWord s.draws ∧ t.draws = s.draws + 1 ∧
        t.fb = (if writesFb i = true then w else s.fb) ∧ t.fx = (if writesFx i = true then w else s.fx)
      else t.draws = s.draws) := by
  split
  next h =>
    rcases h with h0 | hread
    · exact step_command_refused hp hd h0
    · exact step_of_readsUnwritten hp hd hread
  next h =>
    obtain ⟨h0, hread⟩ := not_or.1 h
    refine ⟨_, _, step_complete hp hd (not_not.1 h0) hread, rfl, rfl, not_not.1 h0, ?_⟩
    rw [resultOpen_eq_isNone]
    cases commandWord s i with
    | none => exact ⟨rfl, rfl, rfl, rfl⟩
    | some w => rfl

/-- The outcome of a step that waits or resets. -/
theorem step_uncommanded_outcome {s : State} (hp : ∀ c rest, s.pending ≠ .command c :: rest) :
    if s.fxRefusals ≠ 0 then step s = .next { s with pending := s.pending.tail }.refuseFx
    else ∃ t, step s = .next t ∧ t.fxRefusals = 0 ∧ t.pending = s.pending.tail := by
  split
  next h0 =>
    rcases step_refused h0 with ⟨-, h⟩ | ⟨c, rest, e, hc, -, -⟩
    · exact h
    · exact absurd hc (hp c rest)
  next h0 =>
    rcases step_clean (not_not.1 h0) with ⟨hn, h⟩ | ⟨rest, hr, h⟩ | ⟨c, rest, i, hc, -, -⟩ | ⟨c, rest, e, hc, -, -⟩
    · exact ⟨s, h, not_not.1 h0, by rw [hn, List.tail_nil]⟩
    · exact ⟨_, h, not_not.1 h0, by rw [hr, List.tail_cons]; rfl⟩
    · exact absurd hc (hp c rest)
    · exact absurd hc (hp c rest)

/-- Settles O10: the outcomes of one step by its request, and those of a run by induction on its length. -/
theorem outcomesOfAStep : Obligations.OutcomesOfAStep := by
  intro s
  refine ⟨?step, fun r k => core_run_refused k, fun k t h => ?count, fun k r h => ?refusal, fun k t h0 h => ?undefined⟩
  case step =>
    split
    next c rest hp =>
      split
      next e hd => exact (step_cons hp).trans (runCommand_error _ hd)
      next i hd => exact step_command_outcome hp hd
    next hp => exact step_uncommanded_outcome hp
  case count =>
    exact core_run_keeps (P := fun u => s.fxRefusals ≤ u.fxRefusals)
      (fun hu hv => hu.trans (fxRefusals_le_of_step hv)) le_rfl h
  case refusal =>
    rcases core_run_total k s with ⟨t, ht⟩ | ⟨n, hrun, hn⟩
    · cases ht.symm.trans h
    · exact ⟨n, (Host.Outcome.refused.inj (hrun.symm.trans h)).symm, hn⟩
  case undefined =>
    obtain ⟨n, hn, -, hundefined⟩ := core_run_undefined h0 h
    exact ⟨n, hn, hundefined⟩

/-! ### Safe runs -/

/-- Settles O50: the stream is empty and the constants are those of the block. -/
theorem resetMeetsTheInvariants : Obligations.ResetMeetsTheInvariants := ⟨⟨rfl, rfl⟩, rfl, rfl, rfl, rfl⟩

theorem State.Safe.fxRefusals_eq_zero {s : State} (hs : s.Safe) : s.fxRefusals = 0 := hs.1

theorem State.not_safe_of_refused {s : State} (h0 : s.fxRefusals ≠ 0) : ¬ s.Safe := fun hs => h0 hs.fxRefusals_eq_zero

/-- With nothing pending a block is safe while no refusal is counted. -/
theorem State.safe_iff_of_nil {s : State} (hp : s.pending = []) : s.Safe ↔ s.fxRefusals = 0 := by
  simp [State.Safe, hp, streamSafe]

/-- A reset leaves `FX.word` unwritten. -/
theorem State.safe_iff_of_reset {s : State} {rest : List Request} (hp : s.pending = .reset :: rest) :
    s.Safe ↔ s.fxRefusals = 0 ∧ streamSafe false rest = true := by
  simp [State.Safe, hp, streamSafe]

theorem State.not_safe_of_error {s : State} {c : Command} {rest : List Request} {e : Reserved}
    (hp : s.pending = .command c :: rest) (hd : decode c = .error e) : ¬ s.Safe := by
  simp [State.Safe, hp, streamSafe, hd]

/-- The next command reads no unwritten `FX.word`, and the stream after it is safe for the mark it leaves. -/
theorem State.safe_iff_of_command {s : State} {c : Command} {rest : List Request} {i : Instr}
    (hp : s.pending = .command c :: rest) (hd : decode c = .ok i) :
    s.Safe ↔ s.fxRefusals = 0 ∧ ¬ ReadsUnwritten i s ∧ streamSafe (s.fxWritten || writesFx i) rest = true := by
  simp only [State.Safe, hp, streamSafe, hd, ReadsUnwritten]
  cases s.fxWritten <;> cases readsFx i <;> simp

/-- A step from a safe state ends in a safe one, and from no other: the command it takes is checked, and leaves the mark
that the rest of the stream is checked with. -/
theorem step_safe_iff {s t : State} (h : step s = .next t) : t.Safe ↔ s.Safe := by
  rcases eq_or_ne s.fxRefusals 0 with h0 | h0
  · rcases step_clean h0 with ⟨-, ht⟩ | ⟨rest, hp, ht⟩ | ⟨c, rest, i, hp, hd, ht⟩ | ⟨c, rest, e, -, -, ht⟩
    · obtain rfl := Host.Outcome.next.inj (ht.symm.trans h)
      rfl
    · obtain rfl := Host.Outcome.next.inj (ht.symm.trans h)
      exact (State.safe_iff_of_reset hp).symm
    · rw [State.safe_iff_of_command hp hd]
      rcases exec_cases i { s with pending := rest } with ⟨hread, he⟩ | ⟨hread, he⟩
      · obtain rfl := Host.Outcome.next.inj (he.symm.trans (ht.symm.trans h))
        exact iff_of_false (State.not_safe_of_refused (Nat.succ_ne_zero _)) fun ⟨_, hn, _⟩ => hn hread
      · obtain rfl := Host.Outcome.next.inj (he.symm.trans (ht.symm.trans h))
        exact and_congr_right fun _ => (and_iff_right hread).symm
    · cases ht.symm.trans h
  · obtain rfl := step_next_of_refused h0 h
    exact iff_of_false (State.not_safe_of_refused (Nat.succ_ne_zero _)) (State.not_safe_of_refused h0)

/-- A safe block meets no reserved command. -/
theorem State.Safe.exists_step {s : State} (hs : s.Safe) : ∃ t, step s = .next t := by
  rcases step_clean hs.fxRefusals_eq_zero with ⟨-, h⟩ | ⟨rest, -, h⟩ | ⟨c, rest, i, -, -, h⟩ | ⟨c, rest, e, hp, hd, -⟩
  · exact ⟨s, h⟩
  · exact ⟨_, h⟩
  · exact h ▸ exists_exec_eq_next i _
  · exact absurd hs (State.not_safe_of_error hp hd)

/-- Settles O51: a safe block steps, and the step keeps safety. -/
theorem safeInstancesStaySafe : Obligations.SafeInstancesStaySafe := by
  intro s hs
  obtain ⟨t, ht⟩ := hs.exists_step
  have htsafe := (step_safe_iff ht).2 hs
  exact ⟨t, ht, htsafe, htsafe.fxRefusals_eq_zero⟩

theorem core_run_safe_iff {s t : State} {k : Nat} (h : core.run k s = .next t) : t.Safe ↔ s.Safe :=
  core_run_keeps (P := fun u => u.Safe ↔ s.Safe) (fun hu hv => (step_safe_iff hv).trans hu) Iff.rfl h

theorem State.Safe.exists_run {s : State} (hs : s.Safe) (k : Nat) : ∃ t, core.run k s = .next t := by
  induction k generalizing s with
  | zero => exact ⟨s, rfl⟩
  | succ k ih =>
    obtain ⟨t, ht, hsafe, -⟩ := safeInstancesStaySafe s hs
    rw [core_run_next k ht]
    exact ih hsafe

/-- Settles O52: at the end of its stream a run is safe exactly when no refusal is counted, and it is safe exactly when
the state it began with was. -/
theorem safeStreamsAreExactlyThoseThatRun : Obligations.SafeStreamsAreExactlyThoseThatRun := by
  intro s
  have hend {t : State} (h : core.run s.pending.length s = .next t) :
      t.pending = [] ∧ (t.fxRefusals = 0 ↔ s.Safe) := by
    have hp : t.pending = [] := by rw [core_run_pending h, List.drop_length]
    exact ⟨hp, by rw [← State.safe_iff_of_nil hp, core_run_safe_iff h]⟩
  constructor
  · intro hs
    obtain ⟨t, ht⟩ := hs.exists_run s.pending.length
    obtain ⟨hp, hsafe⟩ := hend ht
    exact ⟨t, ht, hp, hsafe.2 hs⟩
  · intro hs
    rcases core_run_total s.pending.length s with ⟨t, ht⟩ | ⟨n, hr, -⟩
    · obtain ⟨hp, hsafe⟩ := hend ht
      exact .inr ⟨t, ht, hp, fun h0 => hs (hsafe.1 h0)⟩
    · exact .inl ⟨n, hr⟩

end Sys2Proof.Machine
end

