-- ==== Sys2Proof/Proofs/IndexAndFloat.lean ====
section
/-! The commands LZC (41_lzc sections 3 and 4) and FBSET (42_float_composer sections 2, 4 and 5). -/

namespace Sys2Proof.Machine

/-! ### LZC -/

theorem lzcResult_of_ne_zero {a : Word} (ha : a ≠ 0#32) (cfg : Config) :
    lzcResult cfg a = some (BitVec.ofNat 32 (lzcIndex cfg.lzcVariant a)) :=
  if_neg ha

theorem isMsbIndex_lzcIndex {a : Word} (ha : a ≠ 0#32) : IsMsbIndex a (lzcIndex .msb a) := by
  obtain ⟨h, hh⟩ := exists_isMsbIndex ha
  rwa [lzcIndex_msb hh]

theorem isLsbIndex_lzcIndex {a : Word} (ha : a ≠ 0#32) : IsLsbIndex a (lzcIndex .lsb a) := by
  obtain ⟨t, ht⟩ := exists_isLsbIndex ha
  rwa [lzcIndex_lsb ht]

theorem lzcIndex_lt {a : Word} (ha : a ≠ 0#32) (variant : LzcVariant) : lzcIndex variant a < 32 := by
  cases variant with
  | msb => exact (isMsbIndex_lzcIndex ha).lt
  | lsb => exact (isLsbIndex_lzcIndex ha).lt

/-- Bits below the highest set bit leave it the highest (41_lzc section 4). -/
theorem IsMsbIndex.or_of_lt {a v : Word} {h : Nat} (hh : IsMsbIndex a h) (hv : v.toNat < 2 ^ h) :
    IsMsbIndex (a ||| v) h := by
  obtain ⟨hset, habove⟩ := hh
  refine ⟨by rw [BitVec.getLsbD_or, hset, Bool.true_or], fun i hi => ?_⟩
  have hvi : v.getLsbD i = false := Nat.testBit_lt_two_pow (hv.trans_le (Nat.pow_le_pow_right two_pos hi.le))
  rw [BitVec.getLsbD_or, habove i hi, hvi, Bool.or_false]

/-- Settles O21: LZC answers the index of a word that is not 0, and of 0 a free value. -/
theorem lzcAnswersTheIndex : Obligations.LzcAnswersTheIndex := by
  refine ⟨fun a b => decode_ctlOf false 0x1#4 a b, fun s a ha => ⟨?answer, Nat.le_of_lt_succ (lzcIndex_lt ha _)⟩,
    fun a ha => ⟨isMsbIndex_lzcIndex ha, isLsbIndex_lzcIndex ha⟩, fun s hany => ?zero, fun a v ha hv => ?below⟩
  case answer => rw [exec_lzc, lzcResult_of_ne_zero ha]; rfl
  case zero =>
    have hopen : lzcResult s.cfg 0#32 = none := by rw [lzcResult, if_pos rfl, hany]
    rw [exec_lzc, hopen]
    rfl
  case below => exact lzcIndex_msb ((isMsbIndex_lzcIndex ha).or_of_lt hv)

/-- Settles O22: 0 has no bit for a mask test to keep, and its `low_index` is 32. -/
theorem literalDatapathOnZero : Obligations.LiteralDatapathOnZero := by
  refine ⟨by decide, by decide, fun s hdatapath => ?_⟩
  have h32 : lzcResult s.cfg 0#32 = some 32#32 := by rw [lzcResult, if_pos rfl, hdatapath]
  rw [exec_lzc, h32]
  rfl

/-! ### FBSET -/

/-- A specified pattern is stored and answered. -/
theorem exec_fbset_some {s : State} {sign : Bool} {bpo m w : Word}
    (h : compose s.cfg.lzcVariant sign bpo m = some w) :
    exec (.fbset sign bpo m) s = .next { s with fb := w, result := some w } := by
  rw [exec_fbset, h]
  rfl

/-- Of an open pattern one free value is stored and answered. -/
theorem exec_fbset_none {s : State} {sign : Bool} {bpo m : Word} (h : compose s.cfg.lzcVariant sign bpo m = none) :
    exec (.fbset sign bpo m) s =
      .next { s with fb := Config.freeWord s.draws, result := some (Config.freeWord s.draws),
                     draws := s.draws + 1 } := by
  rw [exec_fbset, h]
  rfl

/-- The composed word is open exactly above index 23 (42_float_composer R58). -/
theorem compose_eq_none_iff {variant : LzcVariant} {sign : Bool} {bpo m : Word} (hm : m ≠ 0#32) :
    compose variant sign bpo m = none ↔ 23 < lzcIndex variant m := by
  rw [compose_of_ne_zero hm, ite_eq_right_iff, ← not_le]
  simp

/-- The msb index exceeds `n` from `2^(n+1)` on. -/
theorem IsMsbIndex.lt_iff_two_pow_le {m : Word} {h : Nat} (hh : IsMsbIndex m h) (n : Nat) :
    n < h ↔ 2 ^ (n + 1) ≤ m.toNat := by
  obtain ⟨hlo, hhi⟩ := (isMsbIndex_iff m h).1 hh
  constructor
  · intro hn
    exact (Nat.pow_le_pow_right two_pos hn).trans hlo
  · intro hn
    exact Nat.lt_of_succ_lt_succ ((Nat.pow_lt_pow_iff_right (by decide)).1 (hn.trans_lt hhi))

/-- Under MSB the result is open exactly from `2^24` on (42_float_composer R58). -/
theorem compose_msb_eq_none_iff (sign : Bool) (bpo m : Word) : compose .msb sign bpo m = none ↔ 2 ^ 24 ≤ m.toNat := by
  rcases eq_or_ne m 0#32 with rfl | hm
  · simp [compose_zero]
  · rw [compose_eq_none_iff hm, (isMsbIndex_lzcIndex hm).lt_iff_two_pow_le]

/-- Settles O25: the composed word is open above index 23, and FBSET stores a free value there. -/
theorem wideMantissaIsUnspecified : Obligations.WideMantissaIsUnspecified :=
  ⟨fun _ _ _ _ hm => compose_eq_none_iff hm, compose_msb_eq_none_iff,
    fun _ _ _ _ hm hwide => exec_fbset_none ((compose_eq_none_iff hm).2 hwide)⟩

/-- The word FBSET answers is the word it stores, so a later FBGET answers it again (42_float_composer R61, R62). -/
theorem exec_fbget_after_fbset {s t : State} {sign : Bool} {bpo m : Word}
    (h : exec (.fbset sign bpo m) s = .next t) : t.result = some t.fb ∧ exec .fbget t = .next t := by
  rw [exec_fbset] at h
  obtain rfl := Host.Outcome.next.inj h
  exact ⟨rfl, rfl⟩

/-- Settles O28: FBSET stores and answers what `compose` gives, or a free value. -/
theorem fbsetStoresTheComposedWord : Obligations.FbsetStoresTheComposedWord := by
  refine ⟨fun a b => ⟨decode_ctlOf false 0x2#4 a b, decode_ctlOf true 0x2#4 a b⟩,
    fun _ _ _ _ _ h => exec_fbset_some h, fun sign bpo m hm => ?specified, fun _ _ _ _ h => exec_fbset_none h,
    fun _ _ _ _ _ h => exec_fbget_after_fbset h, by decide⟩
  case specified =>
    rw [← Option.ne_none_iff_exists', Ne, compose_msb_eq_none_iff]
    exact not_le.2 hm

/-! ### The composer under LSB (42_float_composer R65) -/

/-- A word is a multiple of its lowest set bit. -/
theorem IsLsbIndex.dvd {m : Word} {t : Nat} (ht : IsLsbIndex m t) : 2 ^ t ∣ m.toNat := by
  obtain ⟨-, hbelow⟩ := ht
  refine Nat.dvd_of_mod_eq_zero (Nat.eq_of_testBit_eq fun i => ?_)
  rw [Nat.testBit_mod_two_pow, Nat.zero_testBit, Bool.and_eq_false_imp]
  exact fun hi => hbelow i (of_decide_eq_true hi)

/-- Shifted to position 23 the lowest set bit leaves the mantissa field empty. -/
theorem IsLsbIndex.mantissa_eq_zero {m : Word} {t : Nat} (ht : IsLsbIndex m t) (hle : t ≤ 23) :
    BitVec.ofNat 23 (m.toNat * 2 ^ (23 - t)) = 0#23 := by
  have hdvd : 2 ^ 23 ∣ m.toNat * 2 ^ (23 - t) := by
    rw [← Nat.add_sub_cancel' hle, pow_add, Nat.add_sub_cancel_left]
    exact Nat.mul_dvd_mul_right ht.dvd _
  apply BitVec.eq_of_toNat_eq
  rw [BitVec.toNat_ofNat, Nat.mod_eq_zero_of_dvd hdvd]
  rfl

theorem IsLsbIndex.ne_zero {m : Word} {t : Nat} (ht : IsLsbIndex m t) : m ≠ 0#32 := by
  rintro rfl
  simpa using ht.1

/-- Indices up to 23 give different exponent fields, under the same offset. -/
theorem index_eq_of_exponent_eq {t h : Nat} {b : Int} (ht : t ≤ 23) (hh : h ≤ 23)
    (he : BitVec.ofInt 8 (t - b + 127) = BitVec.ofInt 8 (h - b + 127)) : t = h := by
  have hmod := congrArg BitVec.toNat he
  rw [BitVec.toNat_ofInt, BitVec.toNat_ofInt] at hmod
  omega

/-- On a mantissa of at most 24 bits the two variants compose the same word exactly when they report the same index. -/
theorem compose_lsb_eq_msb_iff {m : Word} {t h : Nat} (ht : IsLsbIndex m t) (hh : IsMsbIndex m h) (hle : h ≤ 23)
    (sign : Bool) (bpo : Word) : compose .lsb sign bpo m = compose .msb sign bpo m ↔ t = h := by
  have hth : t ≤ h := not_lt.1 fun hlt => by simpa [hh.2 t hlt] using ht.1
  rw [compose_of_le ht.ne_zero (lzcIndex_lsb ht) (hth.trans hle), compose_of_le hh.ne_zero (lzcIndex_msb hh) hle]
  constructor
  · intro heq
    have hexp := congrArg (BitVec.extractLsb' 23 8) (Option.some.inj heq)
    rw [exponent_floatWord, exponent_floatWord] at hexp
    exact index_eq_of_exponent_eq (hth.trans hle) hle hexp
  · rintro rfl
    rfl

/-- Settles O31: under LSB the index is that of the lowest set bit, whose shift to position 23 empties the mantissa
field; the exponents agree when the lowest set bit is the highest. -/
theorem lsbVariantComposesPowersOfTwo : Obligations.LsbVariantComposesPowersOfTwo := by
  refine ⟨fun sign bpo m t ht hle => ?power, fun sign bpo m t ht hgt => ?opened, fun sign bpo m hm => ?agree,
    by decide⟩
  case power => rw [compose_of_le ht.ne_zero (lzcIndex_lsb ht) hle, ht.mantissa_eq_zero hle]
  case opened =>
    rw [compose_eq_none_iff ht.ne_zero, lzcIndex_lsb ht]
    exact hgt
  case agree =>
    rcases eq_or_ne m 0#32 with rfl | hne
    · rw [compose_zero, compose_zero, (setBitCount_eq_zero_iff _).2 rfl]
      exact iff_of_true rfl zero_le_one
    · obtain ⟨t, ht⟩ := exists_isLsbIndex hne
      obtain ⟨h, hh⟩ := exists_isMsbIndex hne
      have hcount : setBitCount m ≠ 0 := (setBitCount_eq_zero_iff m).not.2 hne
      rw [compose_lsb_eq_msb_iff ht hh (hh.le_23 (Nat.le_sub_one_of_lt hm)), lsbIndex_eq_msbIndex_iff ht hh]
      omega

end Sys2Proof.Machine
end

