-- ==== Sys2Proof/Proofs/FixedCommands.lean ====
section
/-! The fixed-point commands (43_fixed_point): FXLD loads the one rounding (R67, R68), FXGET reads (R69), and the six
arithmetic commands write their words (R70 to R75). -/

namespace Sys2Proof.Machine

/-! ### The rounding is unique (R67) -/

/-- Two neighbours that are both nearest to `q` lie half way below and above it. -/
theorem half_of_isRounding_succ {tie : TieRule} {q : ℚ} {y : Int} (hy : IsRounding tie q y)
    (hz : IsRounding tie q (y + 1)) : q = y + 1 / 2 := by
  have hlo := (abs_le.1 hy.1).1
  have hhi := (abs_le.1 hz.1).2
  push_cast at hhi
  linarith

/-- A tie rule does not select both neighbours. -/
theorem not_isRounding_succ {tie : TieRule} {q : ℚ} {y : Int} (hy : IsRounding tie q y) :
    ¬ IsRounding tie q (y + 1) := by
  intro hz
  obtain rfl := half_of_isRounding_succ hy hz
  have hty := hy.2 (by rw [sub_add_cancel_left, abs_neg, abs_of_pos one_half_pos])
  have htz := hz.2 (by rw [Int.cast_add, Int.cast_one, add_sub_add_left_eq_sub, sub_half, abs_of_pos one_half_pos])
  cases tie with
  | away =>
    dsimp only at hty htz
    push_cast at htz
    rcases le_or_gt 0 y with hsign | hsign
    · have hsign' : (0 : ℚ) ≤ y := Int.cast_nonneg hsign
      rw [abs_of_nonneg hsign', abs_of_nonneg (by linarith)] at hty
      linarith
    · have hsign' : (y : ℚ) ≤ -1 := by exact_mod_cast Int.le_sub_one_of_lt hsign
      rw [abs_of_nonpos (by linarith), abs_of_nonpos (by linarith)] at htz
      linarith
  | even =>
    dsimp only at hty htz
    omega
  | up =>
    dsimp only at hty
    linarith

/-- Two nearest integers are at most 1 apart. -/
theorem le_succ_of_isRounding {tie : TieRule} {q : ℚ} {y z : Int} (hy : IsRounding tie q y)
    (hz : IsRounding tie q z) : z ≤ y + 1 := by
  have hlo := (abs_le.1 hy.1).1
  have hhi := (abs_le.1 hz.1).2
  have hle : (z : ℚ) ≤ (y + 1 : Int) := by push_cast; linarith
  exact_mod_cast hle

/-- Settles O34: two roundings are at most 1 apart, and the tie rule excludes two neighbours. -/
theorem roundingIsUnique : Obligations.RoundingIsUnique := by
  intro tie q y z hy hz
  have hzy := le_succ_of_isRounding hy hz
  have hyz := le_succ_of_isRounding hz hy
  have hne : z ≠ y + 1 := by rintro rfl; exact not_isRounding_succ hy hz
  have hne' : y ≠ z + 1 := by rintro rfl; exact not_isRounding_succ hz hy
  omega

/-! ### FXLD (R68) -/

/-- A specified word is loaded and answered. -/
theorem exec_fxld_some {s : State} {a w : Word} (h : fxFromPattern s.cfg a = some w) :
    exec (.fxld a) s = .next { s with fx := w, fxWritten := true, result := some w } := by
  rw [exec_fxld, h]
  rfl

/-- Of an open word one free value is loaded and answered. -/
theorem exec_fxld_none {s : State} {a : Word} (h : fxFromPattern s.cfg a = none) :
    exec (.fxld a) s =
      .next { s with fx := Config.freeWord s.draws, fxWritten := true,
                     result := some (Config.freeWord s.draws), draws := s.draws + 1 } := by
  rw [exec_fxld, h]
  rfl

/-- A pattern that stands for a real is loaded by construction from that real (R67, R68). -/
theorem fxFromPattern_of_toRat? {a : Word} {q : ℚ} (hq : (floatValue a).toRat? = some q) (cfg : Config) :
    ∃ m e : Int, q = m * 2 ^ e ∧ fxFromPattern cfg a = fxFromReal cfg m e := by
  rw [fxFromPattern]
  cases hv : floatValue a with
  | zero negative =>
    rw [hv] at hq
    exact ⟨0, 0, by simpa using (Option.some.inj hq).symm, rfl⟩
  | finite m e =>
    rw [hv] at hq
    exact ⟨m, e, (Option.some.inj hq).symm, rfl⟩
  | infinity negative => rw [hv] at hq; cases hq
  | nan => rw [hv] at hq; cases hq

theorem fxFromPattern_eq_none {a : Word} (hq : (floatValue a).toRat? = none) (cfg : Config) :
    fxFromPattern cfg a = none := by
  rw [fxFromPattern]
  cases hv : floatValue a with
  | zero negative => rw [hv] at hq; cases hq
  | finite m e => rw [hv] at hq; cases hq
  | infinity negative => rfl
  | nan => rfl

/-- A pattern that stands for the real `q` is loaded as the rounding of `q * 2^SHIFT`, where that fits. -/
theorem fxFromPattern_rounds {a : Word} {q : ℚ} (hq : (floatValue a).toRat? = some q) (cfg : Config) :
    ∃ z : Int, IsRounding cfg.tieRule (q * 2 ^ cfg.shift.val) z ∧
      (FitsWord z → fxFromPattern cfg a = some (BitVec.ofInt 32 z)) ∧
      (¬ FitsWord z → fxFromPattern cfg a = none) := by
  obtain ⟨m, e, rfl, hload⟩ := fxFromPattern_of_toRat? hq cfg
  rw [hload]
  exact constructionRoundsToNearest cfg m e

/-- Exponent field 0 stands for a real too small for any `SHIFT` to bring it to a half (42_float_composer R60). -/
theorem toRat?_of_exponent_zero {a : Word} (ha : a.extractLsb' 23 8 = 0#8) :
    ∃ q : ℚ, (floatValue a).toRat? = some q ∧ |q| < 2 ^ (-126 : ℤ) := by
  have hE : (a.extractLsb' 23 8).toNat = 0 := by rw [ha]; rfl
  rcases eq_or_ne (a.extractLsb' 0 23).toNat 0 with hF | hF
  · exact ⟨0, by rw [floatValue_zero hE hF]; rfl, by rw [abs_zero]; positivity⟩
  · refine ⟨_, by rw [floatValue_subnormal hE hF, toRat?_finite_signedInt], ?_⟩
    have hF23 : ((a.extractLsb' 0 23).toNat : ℚ) < 2 ^ 23 := by exact_mod_cast (a.extractLsb' 0 23).isLt
    rw [abs_mul, abs_mul, abs_neg_one_pow, one_mul, Nat.abs_cast, abs_of_pos (by positivity)]
    calc ((a.extractLsb' 0 23).toNat : ℚ) * 2 ^ (-149 : ℤ)
        < 2 ^ 23 * 2 ^ (-149 : ℤ) := mul_lt_mul_of_pos_right hF23 (by positivity)
      _ = 2 ^ (-126 : ℤ) := by norm_num

/-- Zeros and subnormals load 0: it is the nearest integer, under every tie rule. -/
theorem fxFromPattern_of_exponent_zero {a : Word} (ha : a.extractLsb' 23 8 = 0#8) (cfg : Config) :
    fxFromPattern cfg a = some 0#32 := by
  obtain ⟨q, hq, hsmall⟩ := toRat?_of_exponent_zero ha
  obtain ⟨z, hz, hfits, -⟩ := fxFromPattern_rounds hq cfg
  have hscaled : |q * 2 ^ cfg.shift.val| < 1 / 2 := by
    have hshift : (2 : ℚ) ^ cfg.shift.val ≤ 2 ^ 31 := pow_le_pow_right₀ one_le_two (Nat.le_of_lt_succ cfg.shift.isLt)
    rw [abs_mul, abs_of_pos (by positivity : (0 : ℚ) < 2 ^ cfg.shift.val)]
    calc |q| * 2 ^ cfg.shift.val ≤ |q| * 2 ^ 31 := mul_le_mul_of_nonneg_left hshift (abs_nonneg q)
      _ < 2 ^ (-126 : ℤ) * 2 ^ 31 := mul_lt_mul_of_pos_right hsmall (by positivity)
      _ < 1 / 2 := by norm_num
  have hzero : IsRounding cfg.tieRule (q * 2 ^ cfg.shift.val) 0 := by
    refine isRounding_of_abs_lt _ ?_
    rwa [Int.cast_zero, zero_sub, abs_neg]
  obtain rfl := roundingIsUnique _ _ _ _ hz hzero
  exact hfits ⟨by norm_num, by norm_num⟩

/-- Settles O33: FXLD loads what construction from the pattern's real gives, or a free value. -/
theorem fxldLoadsTheRounding : Obligations.FxldLoadsTheRounding := by
  refine ⟨fun a b => decode_ctlOf false 0x4#4 a b, fun s a q hq => ?real,
    fun s a hq => exec_fxld_none (fxFromPattern_eq_none hq s.cfg),
    fun s a ha => exec_fxld_some (fxFromPattern_of_exponent_zero ha s.cfg)⟩
  case real =>
    obtain ⟨z, hz, hfits, hwide⟩ := fxFromPattern_rounds hq s.cfg
    exact ⟨z, hz, fun h => exec_fxld_some (hfits h), fun h => exec_fxld_none (hwide h)⟩

/-! ### FXGET (R69) -/

/-- Settles O35: FXGET answers a written `FX.word`, and an unwritten one is refused. -/
theorem fxgetAnswersFxWord : Obligations.FxgetAnswersFxWord :=
  ⟨fun a b => decode_ctlOf false 0x5#4 a b, fun s hw => (exec_fxget s).trans (State.withFx_written _ hw),
    fun _ hw => exec_of_readsUnwritten ⟨rfl, hw⟩⟩

/-! ### The six arithmetic commands (R70 to R75) -/

theorem add_scaleInt_eq (cfg : Config) (x k : Word) :
    x + scaleInt cfg k = BitVec.ofInt 32 (x.toInt + k.toInt * 2 ^ cfg.shift.val) := by
  rw [scaleInt_eq, BitVec.ofInt_add, BitVec.ofInt_toInt]

theorem sub_scaleInt_eq (cfg : Config) (x k : Word) :
    x - scaleInt cfg k = BitVec.ofInt 32 (x.toInt - k.toInt * 2 ^ cfg.shift.val) := by
  rw [scaleInt_eq, ofInt_sub, BitVec.ofInt_toInt]

theorem add_eq_ofNat (x w : Word) : x + w = BitVec.ofNat 32 (x.toNat + w.toNat) := by
  rw [BitVec.ofNat_add, BitVec.ofNat_toNat, BitVec.ofNat_toNat, BitVec.setWidth_eq, BitVec.setWidth_eq]

theorem sub_eq_ofInt (x w : Word) : x - w = BitVec.ofInt 32 (x.toNat - w.toNat) := by
  rw [ofInt_sub, BitVec.ofInt_natCast, BitVec.ofInt_natCast, BitVec.ofNat_toNat, BitVec.ofNat_toNat,
    BitVec.setWidth_eq, BitVec.setWidth_eq]

/-- The word of FXMUL under W32, as a floor over the rationals (R75). -/
theorem fxProduct_w32_floor {cfg : Config} (h : cfg.mulIntermediate = .w32) (x y : Word) :
    fxProduct cfg x y =
      BitVec.ofInt 32 ⌊((BitVec.ofInt 32 (x.toInt * y.toInt)).toInt : ℚ) / 2 ^ cfg.shift.val⌋ := by
  rw [fxProduct_w32 h, shiftRightArith_eq, floor_div_pow]
  rfl

/-- The word of FXMUL under W64, as a floor over the rationals (R80). -/
theorem fxProduct_w64_floor {cfg : Config} (h : cfg.mulIntermediate = .w64) (x y : Word) :
    fxProduct cfg x y = BitVec.ofInt 32 ⌊((x.toInt * y.toInt : Int) : ℚ) / 2 ^ cfg.shift.val⌋ := by
  rw [fxProduct_w64 h, floor_div_pow]

/-- Settles O36: the scaled integer is added to the word. -/
theorem fxaddiAddsTheScaledInteger : Obligations.FxaddiAddsTheScaledInteger :=
  ⟨fun a b => decode_ctlOf false 0x6#4 a b,
    fun s k hw => ⟨_, add_scaleInt_eq s.cfg s.fx k, (exec_fxaddi s k).trans (State.updateFx_written _ hw)⟩,
    fun _ _ hw => exec_of_readsUnwritten ⟨rfl, hw⟩⟩

/-- Settles O37: the scaled integer is subtracted from the word, and added again it cancels. -/
theorem fxsubiSubtractsTheScaledInteger : Obligations.FxsubiSubtractsTheScaledInteger :=
  ⟨fun a b => decode_ctlOf false 0x7#4 a b,
    fun s k hw => ⟨_, sub_scaleInt_eq s.cfg s.fx k, (exec_fxsubi s k).trans (State.updateFx_written _ hw)⟩,
    fun _ _ hw => exec_of_readsUnwritten ⟨rfl, hw⟩,
    fun s k hw => ⟨_, _, (exec_fxsubi s k).trans (State.updateFx_written _ hw),
      (exec_fxaddi _ k).trans (State.updateFx_written _ hw), BitVec.sub_add_cancel s.fx (scaleInt s.cfg k)⟩⟩

/-- Settles O38: the words are added. -/
theorem fxaddAddsTheWord : Obligations.FxaddAddsTheWord :=
  ⟨fun a b => decode_ctlOf false 0x8#4 a b,
    fun s w hw => ⟨_, add_eq_ofNat s.fx w, (exec_fxadd s w).trans (State.updateFx_written _ hw)⟩,
    fun _ _ hw => exec_of_readsUnwritten ⟨rfl, hw⟩⟩

/-- Settles O39: the words are subtracted. -/
theorem fxsubSubtractsTheWord : Obligations.FxsubSubtractsTheWord :=
  ⟨fun a b => decode_ctlOf false 0x9#4 a b,
    fun s w hw => ⟨_, sub_eq_ofInt s.fx w, (exec_fxsub s w).trans (State.updateFx_written _ hw)⟩,
    fun _ _ hw => exec_of_readsUnwritten ⟨rfl, hw⟩⟩

/-- Settles O40: the word is the low half of the product, the same for signed and unsigned operands. -/
theorem fxmuliMultipliesByTheInteger : Obligations.FxmuliMultipliesByTheInteger :=
  ⟨fun a b => decode_ctlOf false 0xA#4 a b,
    fun s k hw => ⟨_, rfl, (exec_fxmuli s k).trans (State.updateFx_written _ hw)⟩,
    fun _ _ hw => exec_of_readsUnwritten ⟨rfl, hw⟩, product32_eq_ofNat⟩

/-- Settles O41: under either width the shift is the floor of a division by `2^SHIFT`. -/
theorem fxmulMultipliesAndShifts : Obligations.FxmulMultipliesAndShifts :=
  ⟨fun a b => decode_ctlOf false 0xB#4 a b,
    fun s w hw => ⟨_, fun h => fxProduct_w32_floor h s.fx w, fun h => fxProduct_w64_floor h s.fx w,
      (exec_fxmul s w).trans (State.updateFx_written _ hw)⟩,
    fun _ _ hw => exec_of_readsUnwritten ⟨rfl, hw⟩⟩

end Sys2Proof.Machine
end
